-- ==== Sys2Proof/Word.lean ====
section
/-! DEFINITION. The word types of the block (00_scope.md R8, R13; 10_state.md R22, R23): every field and
the encoded word are unsigned bit vectors of a fixed width. -/

namespace Sys2Proof

/-- The 32-bit encoded instruction (R14, R55). -/
abbrev Word := BitVec 32

/-- One output byte of the serializer (R29, R131). -/
abbrev Byte := BitVec 8

/-- A register operand: the 5-bit index of one of x0 to x31 (R23). -/
abbrev Reg := BitVec 5

end Sys2Proof
end

