-- ==== Sys2Proof/Machine/Operands.lean ====
section
/-! DEFINITION. The immediate bit-field splitter (43_immediate_splitter.md R110 to R116): pure wiring from a
descriptor's immediate to the one or two groups of word bits its format keeps for it. -/

namespace Sys2Proof.Machine

/-- `splitI` (R111), for word bits 31:20. -/
def splitI (imm : BitVec 12) : BitVec 12 := imm.extractLsb 11 0

/-- `splitS` (R112), for word bits 31:25 and 11:7. -/
def splitS (imm : BitVec 12) : BitVec 7 × BitVec 5 :=
  (imm.extractLsb 11 5, imm.extractLsb 4 0)

/-- `splitSB` (R113), for word bits 31:25 and 11:7. Bit 0 of the offset is not used (R119). -/
def splitSB (imm : BitVec 13) : BitVec 7 × BitVec 5 :=
  (imm.extractLsb 12 12 ++ imm.extractLsb 10 5, imm.extractLsb 4 1 ++ imm.extractLsb 11 11)

/-- `splitU` (R114), for word bits 31:12. The field already holds imm[31:12]: no shift is applied. -/
def splitU (imm : BitVec 20) : BitVec 20 := imm.extractLsb 19 0

/-- `splitUJ` (R116), for word bits 31:12. Bit 0 of the offset is not used (R119). -/
def splitUJ (imm : BitVec 21) : BitVec 20 :=
  imm.extractLsb 20 20 ++ imm.extractLsb 10 1 ++ imm.extractLsb 11 11 ++ imm.extractLsb 19 12

end Sys2Proof.Machine
end

