-- ==== Sys2Proof/Config.lean ====
section
/-! DEFINITION. The block's parameters (00_scope.md R8, R9), the six formats with their `fmt` select
codes (10_state.md R27), the descriptor fields, and the table of field widths (10_state.md R24).
No parameter here is left open to an implementation except `ImageByteOrder`, which every function that
depends on it takes as an explicit argument. -/

namespace Sys2Proof

namespace Config

/-- `WORD_BITS`: width of an encoded instruction (R8). -/
abbrev wordBits : Nat := 32

/-- `BYTES_PER_WORD`: bytes output per instruction (R8). -/
abbrev bytesPerWord : Nat := 4

/-- `NUM_GPR`: number of integer registers a register field can name (R8). -/
abbrev numGpr : Nat := 32

/-- `REG_BITS`: width of rd, rs1 and rs2 (R8). -/
abbrev regBits : Nat := 5

/-- `OPCODE_BITS` (R8). -/
abbrev opcodeBits : Nat := 7

/-- `FUNCT3_BITS` (R8). -/
abbrev funct3Bits : Nat := 3

/-- `FUNCT7_BITS` (R8). -/
abbrev funct7Bits : Nat := 7

/-- Width of the `imm` input port (R26): that of the widest immediate, the UJ one. -/
abbrev immPortBits : Nat := 21

end Config

/-- The open parameter `imageByteOrder` (R9, R41; 92_eei_decisions.md D7): which of a word's four bytes
a downstream writer puts at the lowest address. Log entry 9: it is an argument of every function about an
image, so a statement holds for both values or names the one it means. -/
inductive ImageByteOrder where
  /-- The least significant byte (`byte3`) stands at the lowest address. -/
  | lsbFirst
  /-- The most significant byte (`byte0`) stands at the lowest address. -/
  | msbFirst
  deriving DecidableEq, Repr

/-- The six base instruction formats, in the order of their `fmt` codes (R2, R14, R27). -/
inductive Fmt where
  /-- R format, code 0. -/
  | r
  /-- I format, code 1. -/
  | i
  /-- S format, code 2. -/
  | s
  /-- SB (also called B) format, code 3. -/
  | sb
  /-- U format, code 4. -/
  | u
  /-- UJ (also called J) format, code 5. -/
  | uj
  deriving DecidableEq, Repr

/-- The descriptor fields of the table in R24; each is also an input port of R26. -/
inductive Field where
  | opcode
  | rd
  | funct3
  | rs1
  | rs2
  | funct7
  | imm
  deriving DecidableEq, Repr

/-- Every field, in the column order of R24. -/
def Field.all : List Field := [.opcode, .rd, .funct3, .rs1, .rs2, .funct7, .imm]

/-- The table of R24: the width of each field of each format; `none` is the table's "-", a field the
format does not have. -/
def Fmt.width : Fmt → Field → Option Nat
  | _,   .opcode => some Config.opcodeBits
  | .r,  .rd     => some Config.regBits
  | .i,  .rd     => some Config.regBits
  | .s,  .rd     => none
  | .sb, .rd     => none
  | .u,  .rd     => some Config.regBits
  | .uj, .rd     => some Config.regBits
  | .r,  .funct3 => some Config.funct3Bits
  | .i,  .funct3 => some Config.funct3Bits
  | .s,  .funct3 => some Config.funct3Bits
  | .sb, .funct3 => some Config.funct3Bits
  | .u,  .funct3 => none
  | .uj, .funct3 => none
  | .r,  .rs1    => some Config.regBits
  | .i,  .rs1    => some Config.regBits
  | .s,  .rs1    => some Config.regBits
  | .sb, .rs1    => some Config.regBits
  | .u,  .rs1    => none
  | .uj, .rs1    => none
  | .r,  .rs2    => some Config.regBits
  | .i,  .rs2    => none
  | .s,  .rs2    => some Config.regBits
  | .sb, .rs2    => some Config.regBits
  | .u,  .rs2    => none
  | .uj, .rs2    => none
  | .r,  .funct7 => some Config.funct7Bits
  | .i,  .funct7 => none
  | .s,  .funct7 => none
  | .sb, .funct7 => none
  | .u,  .funct7 => none
  | .uj, .funct7 => none
  | .r,  .imm    => none
  | .i,  .imm    => some 12
  | .s,  .imm    => some 12
  | .sb, .imm    => some 13
  | .u,  .imm    => some 20
  | .uj, .imm    => some 21

end Sys2Proof
end

