-- ==== Sys2Proof/Machine/Bits.lean ====
section
/-! DEFINITION. The two bit numberings of 00_scope.md R10 and the conversions of R11 between a bit vector
and the source's bit sequence, most significant bit first (R13). The other notation of R11 is Lean's own:
the slice `v[hi:lo]` is `BitVec.extractLsb hi lo`, `a ++ b` is `++`, `val` is `toNat`, `sval` is `toInt`, and
`zext` is `setWidth`. -/

namespace Sys2Proof.Machine

/-- `seq(v)` (R11): the bits of `v`, most significant first, so that sequence index `i` is bit position
`n-1-i`. -/
def seq {n : Nat} (v : BitVec n) : List Bool :=
  (List.range n).map v.getMsbD

/-- `ofSeq(l)` (R11): the bit vector whose most significant bit is the first element of `l`. -/
def ofSeq (l : List Bool) : BitVec l.length :=
  BitVec.ofBoolListBE l

/-- `ofSeq` read at a declared width; it is used only where the sequence has that many bits. -/
def ofSeqAs (n : Nat) (l : List Bool) : BitVec n :=
  (ofSeq l).setWidth n

end Sys2Proof.Machine
end

