-- ==== Sys2Proof/Syntax.lean ====
section
/-! DEFINITION. The block's input: the instruction descriptor of 10_state.md R22, a tagged union of six
variants, one for each row of opcode_table.json. Every field has its declared width by its type (R25). -/

namespace Sys2Proof

/-- The instruction descriptor (R22). A constructor holds exactly the fields the spec lists for its
format, in the spec's order; the constructor's name is the table row's mnemonic. -/
inductive Instr where
  /-- Row ENC_R: R format (R91). -/
  | encR (opcode : BitVec 7) (rd : Reg) (funct3 : BitVec 3) (rs1 : Reg) (rs2 : Reg) (funct7 : BitVec 7)
  /-- Row ENC_I: I format, 12-bit signed immediate (R92). -/
  | encI (opcode : BitVec 7) (rd : Reg) (funct3 : BitVec 3) (rs1 : Reg) (imm : BitVec 12)
  /-- Row ENC_S: S format, 12-bit signed immediate (R93). -/
  | encS (opcode : BitVec 7) (funct3 : BitVec 3) (rs1 : Reg) (rs2 : Reg) (imm : BitVec 12)
  /-- Row ENC_SB: SB format, 13-bit signed byte offset whose bit 0 is implicitly zero (R94). -/
  | encSB (opcode : BitVec 7) (funct3 : BitVec 3) (rs1 : Reg) (rs2 : Reg) (imm : BitVec 13)
  /-- Row ENC_U: U format, the upper 20 bits imm[31:12] (R95). -/
  | encU (opcode : BitVec 7) (rd : Reg) (imm : BitVec 20)
  /-- Row ENC_UJ: UJ format, 21-bit signed byte offset whose bit 0 is implicitly zero (R96). -/
  | encUJ (opcode : BitVec 7) (rd : Reg) (imm : BitVec 21)
  deriving DecidableEq, Repr

end Sys2Proof
end

