-- ==== Sys2Proof/WellFormed.lean ====
section
/-! DEFINITION. The field-width invariant of 10_state.md R24 and R25. A typed descriptor meets it by
construction. For fields that arrive as untyped bit sequences, 60_exceptions.md R142 asks that a field of
the wrong width is refused by name before anything is encoded: `RawInstr` is such a descriptor and
`RawInstr.badField` names the offending field. -/

namespace Sys2Proof

/-- An untyped descriptor: a format tag and one bit sequence per field, most significant bit first
(R10, R14 "Bit vector"). A field the format does not have is the empty sequence (log entry 11). -/
structure RawInstr where
  fmt    : Fmt
  opcode : List Bool
  rd     : List Bool
  funct3 : List Bool
  rs1    : List Bool
  rs2    : List Bool
  funct7 : List Bool
  imm    : List Bool
  deriving DecidableEq, Repr

/-- One field of an untyped descriptor. -/
def RawInstr.get (r : RawInstr) : Field → List Bool
  | .opcode => r.opcode
  | .rd     => r.rd
  | .funct3 => r.funct3
  | .rs1    => r.rs1
  | .rs2    => r.rs2
  | .funct7 => r.funct7
  | .imm    => r.imm

/-- A field has its declared width: the one R24 gives it, or no bits where R24 says "-". -/
def RawInstr.fieldOk (r : RawInstr) (f : Field) : Bool :=
  (r.get f).length == (r.fmt.width f).getD 0

/-- The first field, in the column order of R24, whose width is not its declared one. -/
def RawInstr.badField (r : RawInstr) : Option Field :=
  Field.all.find? fun f => !r.fieldOk f

/-- Every field of the untyped descriptor has its declared width (R25). -/
def RawInstr.wellFormed (r : RawInstr) : Bool :=
  r.badField.isNone

/-- The untyped form of a descriptor: each field as its bit sequence (R13). -/
def Instr.raw : Instr → RawInstr
  | .encR op rd f3 rs1 rs2 f7 =>
    ⟨.r, Machine.seq op, Machine.seq rd, Machine.seq f3, Machine.seq rs1, Machine.seq rs2, Machine.seq f7, []⟩
  | .encI op rd f3 rs1 imm =>
    ⟨.i, Machine.seq op, Machine.seq rd, Machine.seq f3, Machine.seq rs1, [], [], Machine.seq imm⟩
  | .encS op f3 rs1 rs2 imm =>
    ⟨.s, Machine.seq op, [], Machine.seq f3, Machine.seq rs1, Machine.seq rs2, [], Machine.seq imm⟩
  | .encSB op f3 rs1 rs2 imm =>
    ⟨.sb, Machine.seq op, [], Machine.seq f3, Machine.seq rs1, Machine.seq rs2, [], Machine.seq imm⟩
  | .encU op rd imm =>
    ⟨.u, Machine.seq op, Machine.seq rd, [], [], [], [], Machine.seq imm⟩
  | .encUJ op rd imm =>
    ⟨.uj, Machine.seq op, Machine.seq rd, [], [], [], [], Machine.seq imm⟩

/-- The field-width invariant of a typed descriptor (R25). The widths in `Instr` make it hold of every
descriptor, which Laws/PerInstr.lean proves constructor by constructor. -/
def Instr.wellFormed (i : Instr) : Bool :=
  i.raw.wellFormed

end Sys2Proof
end

