-- ==== Sys2Proof/Decode.lean ====
section
/-! DEFINITION. What the block reads. It has no instruction bytes and no opcode map (30_encoding.md R67):
its instruction is the value on its input ports (10_state.md R26), and the `fmt` port selects the format.
`decode` is R27 and R28, total on every port value; `encodePorts` is the encoder for it. `decodeAs` is the
conceptual word decoder of R64 and R66, which needs the format from outside the word (42_format_encoders.md
R99). `decodeRaw` reads an untyped descriptor and rejects a field of the wrong width by name (60 R142). -/

namespace Sys2Proof

/-- The input ports of the block (R26). -/
structure Ports where
  /-- Format select (R27). -/
  fmt    : BitVec 3
  /-- Opcode field, used by every format. -/
  opcode : BitVec 7
  /-- Destination register index (R, I, U, UJ). -/
  rd     : Reg
  /-- funct3 field (R, I, S, SB). -/
  funct3 : BitVec 3
  /-- First source register index (R, I, S, SB). -/
  rs1    : Reg
  /-- Second source register index (R, S, SB). -/
  rs2    : Reg
  /-- funct7 field (R). -/
  funct7 : BitVec 7
  /-- Immediate, low-aligned. -/
  imm    : BitVec 21
  deriving DecidableEq, Repr

/-- Why an input is rejected before it is encoded. -/
inductive DecodeError where
  /-- The `fmt` port holds a reserved code, 6 or 7 (R27, R144). -/
  | reservedFmt (code : BitVec 3)
  /-- A field of an untyped descriptor has the wrong width (R142). -/
  | fieldWidth (field : Field)
  deriving DecidableEq, Repr

/-- The `fmt` code of a format (R27). -/
def Fmt.code : Fmt → BitVec 3
  | .r  => 0
  | .i  => 1
  | .s  => 2
  | .sb => 3
  | .u  => 4
  | .uj => 5

/-- The format a `fmt` code selects; codes 6 and 7 are reserved and select none (R27). -/
def Fmt.ofCode (c : BitVec 3) : Option Fmt :=
  match c.toNat with
  | 0 => some .r
  | 1 => some .i
  | 2 => some .s
  | 3 => some .sb
  | 4 => some .u
  | 5 => some .uj
  | _ => none

/-- The format of a descriptor (R22). -/
def Instr.fmt : Instr → Fmt
  | .encR _ _ _ _ _ _ => .r
  | .encI _ _ _ _ _   => .i
  | .encS _ _ _ _ _   => .s
  | .encSB _ _ _ _ _  => .sb
  | .encU _ _ _       => .u
  | .encUJ _ _ _      => .uj

/-- `desc(p)` of R28 once the format is known: the ports the format does not use and the `imm` bits above
its width are not read. -/
def Ports.desc (p : Ports) : Fmt → Instr
  | .r  => .encR p.opcode p.rd p.funct3 p.rs1 p.rs2 p.funct7
  | .i  => .encI p.opcode p.rd p.funct3 p.rs1 (p.imm.extractLsb 11 0)
  | .s  => .encS p.opcode p.funct3 p.rs1 p.rs2 (p.imm.extractLsb 11 0)
  | .sb => .encSB p.opcode p.funct3 p.rs1 p.rs2 (p.imm.extractLsb 12 0)
  | .u  => .encU p.opcode p.rd (p.imm.extractLsb 19 0)
  | .uj => .encUJ p.opcode p.rd (p.imm.extractLsb 20 0)

/-- The descriptor the input ports present (R28), or the rejection of a reserved `fmt` code (R27). -/
def decode (p : Ports) : Except DecodeError Instr :=
  match Fmt.ofCode p.fmt with
  | some f => .ok (p.desc f)
  | none   => .error (.reservedFmt p.fmt)

/-- The port values that present a descriptor: the format's code on `fmt`, each field on its own port, the
immediate low-aligned (R26). The ports the format does not use and the `imm` bits above its width are zero;
R28 lets them be anything (log entry 16). -/
def encodePorts : Instr → Ports
  | .encR op rd f3 rs1 rs2 f7 => ⟨Fmt.r.code, op, rd, f3, rs1, rs2, f7, 0⟩
  | .encI op rd f3 rs1 imm    => ⟨Fmt.i.code, op, rd, f3, rs1, 0, 0, imm.setWidth 21⟩
  | .encS op f3 rs1 rs2 imm   => ⟨Fmt.s.code, op, 0, f3, rs1, rs2, 0, imm.setWidth 21⟩
  | .encSB op f3 rs1 rs2 imm  => ⟨Fmt.sb.code, op, 0, f3, rs1, rs2, 0, imm.setWidth 21⟩
  | .encU op rd imm           => ⟨Fmt.u.code, op, rd, 0, 0, 0, 0, imm.setWidth 21⟩
  | .encUJ op rd imm          => ⟨Fmt.uj.code, op, rd, 0, 0, 0, 0, imm⟩

/-! The decoding direction of a word (30_encoding.md §2): the conceptual decoder of the round-trip law. -/

/-- `opcode = w[6:0]` (R66). -/
def fieldOpcode (w : Word) : BitVec 7 := w.extractLsb 6 0

/-- `rd = w[11:7]` (R66). -/
def fieldRd (w : Word) : Reg := w.extractLsb 11 7

/-- `funct3 = w[14:12]` (R66). -/
def fieldFunct3 (w : Word) : BitVec 3 := w.extractLsb 14 12

/-- `rs1 = w[19:15]` (R66). -/
def fieldRs1 (w : Word) : Reg := w.extractLsb 19 15

/-- `rs2 = w[24:20]` (R66). -/
def fieldRs2 (w : Word) : Reg := w.extractLsb 24 20

/-- `funct7 = w[31:25]` (R66). -/
def fieldFunct7 (w : Word) : BitVec 7 := w.extractLsb 31 25

/-- `immI(w)` (R64). -/
def immI (w : Word) : BitVec 12 := w.extractLsb 31 20

/-- `immS(w)` (R64). -/
def immS (w : Word) : BitVec 12 := w.extractLsb 31 25 ++ w.extractLsb 11 7

/-- `immSB(w)` (R64), with the implicit zero bit 0. -/
def immSB (w : Word) : BitVec 13 :=
  w.extractLsb 31 31 ++ w.extractLsb 7 7 ++ w.extractLsb 30 25 ++ w.extractLsb 11 8 ++ 0#1

/-- `immU(w)` (R64): the 20-bit field. -/
def immU (w : Word) : BitVec 20 := w.extractLsb 31 12

/-- `immUJ(w)` (R64), with the implicit zero bit 0. -/
def immUJ (w : Word) : BitVec 21 :=
  w.extractLsb 31 31 ++ w.extractLsb 19 12 ++ w.extractLsb 20 20 ++ w.extractLsb 30 21 ++ 0#1

/-- The 32-bit immediate a U field stands for (R65). PRESUMED: the spec takes the twelve low zero bits from
general knowledge (93_implementation_defined.md G3); log entry 12. -/
def immU32 (w : Word) : BitVec 32 := immU w ++ 0#12

/-- The descriptor a word stands for under a given format: every field at its fixed position (R63, R66)
and the immediate reassembled (R64). The word alone does not say the format (R99). -/
def decodeAs (f : Fmt) (w : Word) : Instr :=
  match f with
  | .r  => .encR (fieldOpcode w) (fieldRd w) (fieldFunct3 w) (fieldRs1 w) (fieldRs2 w) (fieldFunct7 w)
  | .i  => .encI (fieldOpcode w) (fieldRd w) (fieldFunct3 w) (fieldRs1 w) (immI w)
  | .s  => .encS (fieldOpcode w) (fieldFunct3 w) (fieldRs1 w) (fieldRs2 w) (immS w)
  | .sb => .encSB (fieldOpcode w) (fieldFunct3 w) (fieldRs1 w) (fieldRs2 w) (immSB w)
  | .u  => .encU (fieldOpcode w) (fieldRd w) (immU w)
  | .uj => .encUJ (fieldOpcode w) (fieldRd w) (immUJ w)

/-- The descriptor of an untyped one, each field's sequence read as a bit vector (R13); a field of the wrong
width is rejected by name (R142). -/
def decodeRaw (r : RawInstr) : Except DecodeError Instr :=
  match r.badField with
  | some f => .error (.fieldWidth f)
  | none =>
    let op := Machine.ofSeqAs 7 r.opcode
    let rd := Machine.ofSeqAs 5 r.rd
    let f3 := Machine.ofSeqAs 3 r.funct3
    let rs1 := Machine.ofSeqAs 5 r.rs1
    let rs2 := Machine.ofSeqAs 5 r.rs2
    match r.fmt with
    | .r  => .ok (.encR op rd f3 rs1 rs2 (Machine.ofSeqAs 7 r.funct7))
    | .i  => .ok (.encI op rd f3 rs1 (Machine.ofSeqAs 12 r.imm))
    | .s  => .ok (.encS op f3 rs1 rs2 (Machine.ofSeqAs 12 r.imm))
    | .sb => .ok (.encSB op f3 rs1 rs2 (Machine.ofSeqAs 13 r.imm))
    | .u  => .ok (.encU op rd (Machine.ofSeqAs 20 r.imm))
    | .uj => .ok (.encUJ op rd (Machine.ofSeqAs 21 r.imm))

/-! The opcode table's bits. A row numbers the 32 bits of the word its encoder builds and gives its format
apart from them, in `select` (R67, R71). DESIGN CHOICE (log entry 5): the model reads the select right
above the word, at bits 34:32, so a word of 32 bits has select 0, the R format. -/

/-- The bits of a table-numbered instruction of `nbits` bits: the word in bits 31:0, the select in bits 34:32,
every bit from `nbits` on zero. -/
def tableBits (nbits w : Nat) : BitVec 35 :=
  BitVec.ofNat 35 (w % 2 ^ nbits)

/-- The port values that present a table-numbered instruction: the fields of its word where the selected
format places them (R57 to R62), the dropped bit 0 of an SB or UJ immediate zero (R64; log entry 6); a
reserved select is put on the `fmt` port as it is. -/
def portsOfTableBits (b : BitVec 35) : Ports :=
  match Fmt.ofCode (b.extractLsb 34 32) with
  | some f => encodePorts (decodeAs f (b.extractLsb 31 0))
  | none   => ⟨b.extractLsb 34 32, 0, 0, 0, 0, 0, 0, 0⟩

/-- The port values that present the table-numbered instruction `w` of `nbits` bits. -/
def tablePorts (nbits w : Nat) : Ports :=
  portsOfTableBits (tableBits nbits w)

/-- The instruction the decoder reads from the table-numbered instruction `w` of `nbits` bits: `decode` of
the port values that present it. -/
def decodeTableWord (nbits w : Nat) : Option Instr :=
  match decode (tablePorts nbits w) with
  | .ok i    => some i
  | .error _ => none

end Sys2Proof
end

