-- ==== Sys2Proof/Machine/Flags.lean ====
section
/-! DEFINITION. The block has no flags or condition codes (10_state.md R34). Its one status bit is the
`valid` output, which depends on the `fmt` port alone (R29, R30). -/

namespace Sys2Proof.Machine

/-- The `valid` output: 1 for `fmt` 0 to 5, 0 for the reserved codes 6 and 7 (R29, R30). -/
def validOf (fmt : BitVec 3) : Bool :=
  decide (fmt.toNat < 6)

end Sys2Proof.Machine
end

