-- ==== Sys2Proof/Machine/Serializer.lean ====
section
/-! DEFINITION. The 32-to-4-byte serializer, the spec's Packer (44_byte_serializer.md R130 to R137). -/

namespace Sys2Proof.Machine

/-- `pack(w)` (R131): the four bytes of a word, most significant first. It is total and knows no format
(R132, R133). -/
def pack (w : Word) : Byte × Byte × Byte × Byte :=
  (w.extractLsb 31 24, w.extractLsb 23 16, w.extractLsb 15 8, w.extractLsb 7 0)

/-- `unpack(b0, b1, b2, b3)` (R135). -/
def unpack (b : Byte × Byte × Byte × Byte) : Word :=
  b.1 ++ b.2.1 ++ b.2.2.1 ++ b.2.2.2

/-- The packer's output as the array "bytes 0 to 3" of R130. -/
def packList (w : Word) : List Byte :=
  [(pack w).1, (pack w).2.1, (pack w).2.2.1, (pack w).2.2.2]

end Sys2Proof.Machine
end

