-- ==== Sys2Proof/Machine/State.lean ====
section
/-! DEFINITION. What the host sees of the block at one moment. The block stores nothing (10_state.md R20,
R32 to R36): it has no register, pc, flag, control register or memory. `State` therefore holds the
values on its input ports (R26) and on its output ports (R29), and nothing else; log entry 1. -/

namespace Sys2Proof.Machine

/-- The output ports of the block (R29). They are no state of the block: a step recomputes them all from
the input ports (R161). -/
structure Outputs where
  /-- 1 when `fmt` is not a reserved code (R29, R30). -/
  valid : Bool
  /-- The encoded word. -/
  word  : Word
  /-- Packer byte 0, the most significant. -/
  byte0 : Byte
  /-- Packer byte 1. -/
  byte1 : Byte
  /-- Packer byte 2. -/
  byte2 : Byte
  /-- Packer byte 3, the least significant. -/
  byte3 : Byte
  deriving DecidableEq, Repr

/-- The ports of the block: what the caller presents and what the block drives (log entry 1). -/
structure State where
  inp : Ports
  out : Outputs
  deriving DecidableEq, Repr

/-- The error kinds of the spec that are outcomes at run time (60_exceptions.md R140). -/
inductive Fault where
  /-- `InvalidRegister` (R141): raised by the Register Encoder only, when a register identifier is an
  integer outside 0 to 31 or a string that is not `x<digits>` naming such a value. It has no payload. It
  reaches an outcome only where a caller submits register identifiers (Machine/Caller.lean), never from the
  meaning of an instruction. Safe: no word is produced for that instruction. -/
  | invalidRegister
  deriving DecidableEq, Repr

/-- The inputs to which the spec gives no meaning. -/
inductive Refusal where
  /-- Raised by an arm of `exec` whose instruction has no meaning yet; no arm is left so. Safe. -/
  | notModelled (mnemonic : String)
  /-- Raised by `step` when the `fmt` port holds a reserved code, 6 or 7: "The model refuses it" (R144, also
  R27 and R30). Safe: the unspecified outputs get no value. -/
  | reservedFmt (code : BitVec 3)
  /-- Raised when a caller submits an untyped descriptor with a field of the wrong width: it must be refused
  "by name", and no word is produced for one (R142). Safe. -/
  | fieldWidth (field : Field)
  deriving DecidableEq, Repr

/-- The ports at power-up. The block has nothing to reset, and its outputs are "the function of its current
inputs" at that time too (70_reset_and_hazards.md R160). DESIGN CHOICE (log entry 2): the caller holds every
input port at zero. DEDUCED (log entry 3): the outputs are then those of the all-zero R descriptor, a word
and four bytes of zeros with `valid` 1. -/
def State.reset : State where
  inp := ⟨0, 0, 0, 0, 0, 0, 0, 0⟩
  out := ⟨true, 0, 0, 0, 0, 0⟩

end Sys2Proof.Machine
end

