-- ==== Sys2Proof/Machine/Ops.lean ====
section
/-! DEFINITION. The two things that can happen to the ports: the block drives its outputs (10_state.md
R29), or the caller presents other inputs (70_reset_and_hazards.md R163). The block has no register or
memory to operate on, and takes and returns from no exception (60_exceptions.md R143, R147). -/

namespace Sys2Proof.Machine

/-- The output ports carrying a finished word: the word, its four bytes, and `valid` (R29). -/
def Outputs.ofWord (valid : Bool) (w : Word) : Outputs where
  valid := valid
  word  := w
  byte0 := (pack w).1
  byte1 := (pack w).2.1
  byte2 := (pack w).2.2.1
  byte3 := (pack w).2.2.2

/-- The block drives its output ports for a descriptor of format `f` whose word is `w`; the inputs are the
caller's and stay. -/
def State.drive (f : Fmt) (w : Word) (s : State) : State :=
  { s with out := Outputs.ofWord (validOf f.code) w }

/-- The caller puts other values on the input ports. Until the block is used again, the outputs stand as they
were (log entry 17): an integrator samples them only once they have settled (R165). -/
def State.present (p : Ports) (s : State) : State :=
  { s with inp := p }

end Sys2Proof.Machine
end

