-- ==== Sys2Proof/Machine/Encoders.lean ====
section
/-! DEFINITION. The format mux and the six format encoders (42_format_encoders.md R90 to R98), and the
meaning of each instruction: the block computes its word and drives it, with its bytes, on the outputs. -/

namespace Sys2Proof.Machine

/-- R format (R91). -/
def encR (op : BitVec 7) (rd : Reg) (f3 : BitVec 3) (rs1 rs2 : Reg) (f7 : BitVec 7) : Word :=
  f7 ++ rs2 ++ rs1 ++ f3 ++ rd ++ op

/-- I format (R92). -/
def encI (op : BitVec 7) (rd : Reg) (f3 : BitVec 3) (rs1 : Reg) (imm : BitVec 12) : Word :=
  splitI imm ++ rs1 ++ f3 ++ rd ++ op

/-- S format (R93). -/
def encS (op : BitVec 7) (f3 : BitVec 3) (rs1 rs2 : Reg) (imm : BitVec 12) : Word :=
  (splitS imm).1 ++ rs2 ++ rs1 ++ f3 ++ (splitS imm).2 ++ op

/-- SB format (R94). -/
def encSB (op : BitVec 7) (f3 : BitVec 3) (rs1 rs2 : Reg) (imm : BitVec 13) : Word :=
  (splitSB imm).1 ++ rs2 ++ rs1 ++ f3 ++ (splitSB imm).2 ++ op

/-- U format (R95). -/
def encU (op : BitVec 7) (rd : Reg) (imm : BitVec 20) : Word :=
  splitU imm ++ rd ++ op

/-- UJ format (R96). -/
def encUJ (op : BitVec 7) (rd : Reg) (imm : BitVec 21) : Word :=
  splitUJ imm ++ rd ++ op

/-- The format mux `encode(d)` (R90): total on descriptors, it validates nothing (R97). -/
def encode : Instr → Word
  | .encR op rd f3 rs1 rs2 f7 => encR op rd f3 rs1 rs2 f7
  | .encI op rd f3 rs1 imm    => encI op rd f3 rs1 imm
  | .encS op f3 rs1 rs2 imm   => encS op f3 rs1 rs2 imm
  | .encSB op f3 rs1 rs2 imm  => encSB op f3 rs1 rs2 imm
  | .encU op rd imm           => encU op rd imm
  | .encUJ op rd imm          => encUJ op rd imm

/-- The hardware form of the mux (R98): the six format words, computed in parallel from the shared ports,
in the order of the `fmt` codes. -/
def formatWords (p : Ports) : List Word :=
  [ encR p.opcode p.rd p.funct3 p.rs1 p.rs2 p.funct7,
    encI p.opcode p.rd p.funct3 p.rs1 (p.imm.extractLsb 11 0),
    encS p.opcode p.funct3 p.rs1 p.rs2 (p.imm.extractLsb 11 0),
    encSB p.opcode p.funct3 p.rs1 p.rs2 (p.imm.extractLsb 12 0),
    encU p.opcode p.rd (p.imm.extractLsb 19 0),
    encUJ p.opcode p.rd (p.imm.extractLsb 20 0) ]

/-- The 6-to-1 multiplexer of R98; the reserved codes select no word. -/
def muxWord (p : Ports) : Option Word :=
  (formatWords p)[p.fmt.toNat]?

/-! The meanings, one per row of opcode_table.json. Each format's encoder raises nothing and writes no flag
(R91 to R96), so each answers a next state for every descriptor. -/

/-- ENC_R (R91). -/
def execEncR (op : BitVec 7) (rd : Reg) (f3 : BitVec 3) (rs1 rs2 : Reg) (f7 : BitVec 7) (s : State) :
    Host.Outcome State Fault Refusal :=
  .next (s.drive .r (encR op rd f3 rs1 rs2 f7))

/-- ENC_I (R92). -/
def execEncI (op : BitVec 7) (rd : Reg) (f3 : BitVec 3) (rs1 : Reg) (imm : BitVec 12) (s : State) :
    Host.Outcome State Fault Refusal :=
  .next (s.drive .i (encI op rd f3 rs1 imm))

/-- ENC_S (R93). -/
def execEncS (op : BitVec 7) (f3 : BitVec 3) (rs1 rs2 : Reg) (imm : BitVec 12) (s : State) :
    Host.Outcome State Fault Refusal :=
  .next (s.drive .s (encS op f3 rs1 rs2 imm))

/-- ENC_SB (R94). An odd offset raises nothing (R119). -/
def execEncSB (op : BitVec 7) (f3 : BitVec 3) (rs1 rs2 : Reg) (imm : BitVec 13) (s : State) :
    Host.Outcome State Fault Refusal :=
  .next (s.drive .sb (encSB op f3 rs1 rs2 imm))

/-- ENC_U (R95). -/
def execEncU (op : BitVec 7) (rd : Reg) (imm : BitVec 20) (s : State) :
    Host.Outcome State Fault Refusal :=
  .next (s.drive .u (encU op rd imm))

/-- ENC_UJ (R96). An odd offset raises nothing (R119). -/
def execEncUJ (op : BitVec 7) (rd : Reg) (imm : BitVec 21) (s : State) :
    Host.Outcome State Fault Refusal :=
  .next (s.drive .uj (encUJ op rd imm))

end Sys2Proof.Machine
end

