-- ==== Sys2Proof/Machine/Dispatch.lean ====
section
/-! DEFINITION. One arm per constructor of Instr: the dispatch of 42_format_encoders.md R90, which has one
arm per format and no wildcard. -/

namespace Sys2Proof.Machine

def exec (i : Instr) (s : State) : Host.Outcome State Fault Refusal :=
  match i with
  | .encR op rd f3 rs1 rs2 f7 => Sys2Proof.Machine.execEncR op rd f3 rs1 rs2 f7 s
  | .encI op rd f3 rs1 imm => Sys2Proof.Machine.execEncI op rd f3 rs1 imm s
  | .encS op f3 rs1 rs2 imm => Sys2Proof.Machine.execEncS op f3 rs1 rs2 imm s
  | .encSB op f3 rs1 rs2 imm => Sys2Proof.Machine.execEncSB op f3 rs1 rs2 imm s
  | .encU op rd imm => Sys2Proof.Machine.execEncU op rd imm s
  | .encUJ op rd imm => Sys2Proof.Machine.execEncUJ op rd imm s

end Sys2Proof.Machine
end

