-- ==== Sys2Proof/Machine/Step.lean ====
section
/-! DEFINITION. One use of the block: its outputs are computed from the inputs that stand on its ports
(10_state.md R20, R29). There is no clock, pc or fetch; the untimed model takes one evaluation as one step
(70_reset_and_hazards.md R165; log entry 1). -/

namespace Sys2Proof.Machine

/-- One evaluation of the block. A reserved `fmt` code is refused (R27, R30, R144). -/
def step (s : State) : Host.Outcome State Fault Refusal :=
  match decode s.inp with
  | .ok i                   => exec i s
  | .error (.reservedFmt c) => .refused (.reservedFmt c)
  | .error (.fieldWidth f)  => .refused (.fieldWidth f)

/-- The caller presents a table-numbered instruction on the input ports, so that the next step encodes it.
The block loads no program: this stands for the caller (log entry 7). -/
def State.withFetchWord (s : State) (nbits w : Nat) : State :=
  s.present (tablePorts nbits w)

end Sys2Proof.Machine
end

