-- ==== Sys2Proof/Machine/Image.lean ====
section
/-! DEFINITION. The downstream writer's image (20_memory.md R41 to R44). The block has no memory
(10_state.md R35); an image is a value of its own, beside `State`. It is a list of address and byte pairs
with strictly rising addresses, and an address it does not list holds no byte (log entry 10). -/

namespace Sys2Proof.Machine

/-- The bytes a writer has placed. -/
abbrev Image := List Host.Cell

/-- The canonical form of an image: addresses strictly rising. No entry can equal what an unlisted address
reads as, since that is no byte at all. -/
abbrev Image.wf (m : Image) : Prop :=
  m.Pairwise fun a b => a.1 < b.1

/-- The byte placed at an address, if one was. -/
def Image.read : Image → Nat → Option Byte
  | [], _ => none
  | (c, d) :: m, a => if a = c then some d else Image.read m a

/-- Place one byte at an address, keeping the canonical form. -/
def Image.write : Image → Nat → Byte → Image
  | [], a, b => [(a, b)]
  | (c, d) :: m, a, b =>
    if a < c then (a, b) :: (c, d) :: m
    else if a = c then (a, b) :: m
    else (c, d) :: Image.write m a b

/-- Place a list of bytes at consecutive addresses from `a` on. -/
def Image.writeBytes (m : Image) (a : Nat) : List Byte → Image
  | []      => m
  | b :: bs => Image.writeBytes (m.write a b) (a + 1) bs

/-- A word's four bytes from the lowest address up, under a byte order (R41). -/
def imageBytes : ImageByteOrder → Word → List Byte
  | .lsbFirst, w => (packList w).reverse
  | .msbFirst, w => packList w

/-- Where word `n` of a program starts in an image based at `base` (R41). -/
def wordAddr (base n : Nat) : Nat :=
  base + 4 * n

/-- Place word number `p.1`, which is `p.2`, into an image based at `base` (R41). -/
def placeWord (order : ImageByteOrder) (base : Nat) (m : Image) (p : Nat × Word) : Image :=
  m.writeBytes (wordAddr base p.1) (imageBytes order p.2)

/-- Place numbered words one after another in the order of the list (R41, R49). -/
def placeAll (order : ImageByteOrder) (base : Nat) (m : Image) (ps : List (Nat × Word)) : Image :=
  ps.foldl (placeWord order base) m

/-- Words numbered from `n` on. -/
def numberFrom : Nat → List Word → List (Nat × Word)
  | _, []      => []
  | n, w :: ws => (n, w) :: numberFrom (n + 1) ws

/-- The image of a program: its words in instruction order, from `base` on (R41). -/
def imageOf (order : ImageByteOrder) (base : Nat) (ws : List Word) : Image :=
  placeAll order base [] (numberFrom 0 ws)

/-- The byte stream of a program: each word's bytes in turn (R41; the order inside a word is the writer's,
R136). -/
def streamOf (order : ImageByteOrder) (ws : List Word) : List Byte :=
  ws.flatMap (imageBytes order)

end Sys2Proof.Machine
end

