-- ==== Sys2Proof/Machine/RegisterEncoder.lean ====
section
/-! DEFINITION. The Register Encoder, a boundary function outside the datapath (41_register_encoder.md R80 to
R86; 10_state.md R31). It is not wired to the block's ports: its results are what a caller puts on `rd`,
`rs1` and `rs2`. -/

namespace Sys2Proof.Machine

/-- A register identifier (R80): a mathematical integer of any sign and size (92_eei_decisions.md D8), or a
string. -/
inductive RegId where
  | int (n : Int)
  | str (t : String)
  deriving DecidableEq, Repr

/-- `regencInt` (R81): the integers 0 to 31 and no others. -/
def regencInt (n : Int) : Except Fault Reg :=
  if 0 ≤ n ∧ n ≤ 31 then .ok (BitVec.ofInt 5 n) else .error .invalidRegister

/-- An ASCII decimal digit, `0` to `9` (R82). -/
def isDecimalDigit (c : Char) : Bool :=
  decide ('0' ≤ c) && decide (c ≤ '9')

/-- The decimal number a digit string reads as; leading zeros do not change it (R82). -/
def decimalValue (ds : List Char) : Nat :=
  ds.foldl (fun acc c => 10 * acc + (c.toNat - '0'.toNat)) 0

/-- `regencStr` on the string's characters (R82): `x`, then one or more decimal digits and nothing else, the
number then range-checked. The grammar is the spec's decision D19. -/
def regencChars : List Char → Except Fault Reg
  | 'x' :: d :: ds =>
    if (d :: ds).all isDecimalDigit then regencInt (decimalValue (d :: ds)) else .error .invalidRegister
  | _ => .error .invalidRegister

/-- `regencStr` (R82). -/
def regencStr (t : String) : Except Fault Reg :=
  regencChars t.toList

/-- REGENC (R80): total, with `InvalidRegister` as its only error. -/
def regenc : RegId → Except Fault Reg
  | .int n => regencInt n
  | .str t => regencStr t

end Sys2Proof.Machine
end

