-- ==== Sys2Proof/Machine/Caller.lean ====
section
/-! DEFINITION. The caller's side of the interface (00_scope.md R4; 70_reset_and_hazards.md R162, R163):
resolve register identifiers with the Register Encoder, present the descriptor, use the block, and hand the
words to the writer in instruction order. -/

namespace Sys2Proof.Machine

/-- A descriptor whose register operands are still identifiers. -/
inductive Request where
  | encR (opcode : BitVec 7) (rd : RegId) (funct3 : BitVec 3) (rs1 : RegId) (rs2 : RegId) (funct7 : BitVec 7)
  | encI (opcode : BitVec 7) (rd : RegId) (funct3 : BitVec 3) (rs1 : RegId) (imm : BitVec 12)
  | encS (opcode : BitVec 7) (funct3 : BitVec 3) (rs1 : RegId) (rs2 : RegId) (imm : BitVec 12)
  | encSB (opcode : BitVec 7) (funct3 : BitVec 3) (rs1 : RegId) (rs2 : RegId) (imm : BitVec 13)
  | encU (opcode : BitVec 7) (rd : RegId) (imm : BitVec 20)
  | encUJ (opcode : BitVec 7) (rd : RegId) (imm : BitVec 21)
  deriving DecidableEq, Repr

/-- The register identifiers of a request. -/
def Request.regIds : Request → List RegId
  | .encR _ rd _ rs1 rs2 _ => [rd, rs1, rs2]
  | .encI _ rd _ rs1 _     => [rd, rs1]
  | .encS _ _ rs1 rs2 _    => [rs1, rs2]
  | .encSB _ _ rs1 rs2 _   => [rs1, rs2]
  | .encU _ rd _           => [rd]
  | .encUJ _ rd _          => [rd]

/-- The descriptor of a request. An identifier that fails makes the whole request fail, and the encoder is
not reached with it (60_exceptions.md R141, R143). Which identifier failed is not observable, since the error
has no payload (R145), so the order of the calls does not matter (log entry 8). -/
def Request.resolve : Request → Except Fault Instr
  | .encR op rd f3 rs1 rs2 f7 => do
    return .encR op (← regenc rd) f3 (← regenc rs1) (← regenc rs2) f7
  | .encI op rd f3 rs1 imm => do
    return .encI op (← regenc rd) f3 (← regenc rs1) imm
  | .encS op f3 rs1 rs2 imm => do
    return .encS op f3 (← regenc rs1) (← regenc rs2) imm
  | .encSB op f3 rs1 rs2 imm => do
    return .encSB op f3 (← regenc rs1) (← regenc rs2) imm
  | .encU op rd imm => do
    return .encU op (← regenc rd) imm
  | .encUJ op rd imm => do
    return .encUJ op (← regenc rd) imm

/-- The caller submits a request: on `Err` it rejects the instruction and the block is not used, on `Ok` it
presents the descriptor and the block encodes it (R163). -/
def submit (r : Request) (s : State) : Host.Outcome State Fault Refusal :=
  match r.resolve with
  | .ok i    => step (s.present (encodePorts i))
  | .error e => .fault e

/-- The caller submits an untyped descriptor: a field of the wrong width is refused by name before anything
is encoded (R142). -/
def submitRaw (r : RawInstr) (s : State) : Host.Outcome State Fault Refusal :=
  match decodeRaw r with
  | .ok i                   => step (s.present (encodePorts i))
  | .error (.reservedFmt c) => .refused (.reservedFmt c)
  | .error (.fieldWidth f)  => .refused (.fieldWidth f)

/-- One use of the block: the caller presents port values and reads the outputs, or none where the block's
input has no meaning. A refused input leaves the ports as they were (the block keeps nothing, 20_memory.md
R48), and the caller may go on with other inputs. -/
def use (p : Ports) (s : State) : State × Option Outputs :=
  match step (s.present p) with
  | .next t    => (t, some t.out)
  | .fault _   => (s, none)
  | .refused _ => (s, none)

/-- Uses one after another: what the caller reads from each. -/
def uses : List Ports → State → List (Option Outputs)
  | [], _      => []
  | p :: ps, s => (use p s).2 :: uses ps (use p s).1

/-- The words of a program whose register operands are identifiers, in instruction order (R4). The spec has the
caller reject an instruction whose identifier fails (R141, R163) and does not say what becomes of the program's
other instructions. DESIGN CHOICE (log entry 21): one failed identifier rejects the whole program, and there is
no word list. -/
def assemble : List Request → Except Fault (List Word)
  | []      => .ok []
  | r :: rs => do
    return encode (← r.resolve) :: (← assemble rs)

/-- The image of such a program, written in instruction order (R4, R41); there is none where `assemble` rejects
the program (DESIGN CHOICE, log entry 21). -/
def assembleImage (order : ImageByteOrder) (base : Nat) (rs : List Request) : Except Fault Image :=
  (assemble rs).map (imageOf order base)

end Sys2Proof.Machine
end

