-- ==== Sys2Proof/Machine/Wiring.lean ====
section
/-! DEFINITION. The placement of every input bit as static tables, the form 43_immediate_splitter.md asks
for ("a static table of (source-bit-index → destination-position) pairs"). The tables are written from
30_encoding.md R57 to R62 and from the bit tables of R111 to R116, not from the encoders: that the encoders
agree with them is a statement about the model. -/

namespace Sys2Proof.Machine

/-- Where each field but the immediate stands in a format's word, as (field, highest bit, lowest bit) (R57
to R62). -/
def fieldSlots : Fmt → List (Field × Nat × Nat)
  | .r  => [(.funct7, 31, 25), (.rs2, 24, 20), (.rs1, 19, 15), (.funct3, 14, 12), (.rd, 11, 7), (.opcode, 6, 0)]
  | .i  => [(.rs1, 19, 15), (.funct3, 14, 12), (.rd, 11, 7), (.opcode, 6, 0)]
  | .s  => [(.rs2, 24, 20), (.rs1, 19, 15), (.funct3, 14, 12), (.opcode, 6, 0)]
  | .sb => [(.rs2, 24, 20), (.rs1, 19, 15), (.funct3, 14, 12), (.opcode, 6, 0)]
  | .u  => [(.rd, 11, 7), (.opcode, 6, 0)]
  | .uj => [(.rd, 11, 7), (.opcode, 6, 0)]

/-- The bit tables of the splitter, as (immediate bit, word bit) pairs (R111 to R114, R116). Bit 0 of the SB
and UJ immediates is in no pair: it is dropped. -/
def immSlots : Fmt → List (Nat × Nat)
  | .r  => []
  | .i  => [(0, 20), (1, 21), (2, 22), (3, 23), (4, 24), (5, 25), (6, 26), (7, 27), (8, 28), (9, 29), (10, 30), (11, 31)]
  | .s  => [(0, 7), (1, 8), (2, 9), (3, 10), (4, 11), (5, 25), (6, 26), (7, 27), (8, 28), (9, 29), (10, 30), (11, 31)]
  | .sb => [(1, 8), (2, 9), (3, 10), (4, 11), (5, 25), (6, 26), (7, 27), (8, 28), (9, 29), (10, 30), (11, 7), (12, 31)]
  | .u  => [(0, 12), (1, 13), (2, 14), (3, 15), (4, 16), (5, 17), (6, 18), (7, 19), (8, 20), (9, 21), (10, 22),
            (11, 23), (12, 24), (13, 25), (14, 26), (15, 27), (16, 28), (17, 29), (18, 30), (19, 31)]
  | .uj => [(1, 21), (2, 22), (3, 23), (4, 24), (5, 25), (6, 26), (7, 27), (8, 28), (9, 29), (10, 30), (11, 20),
            (12, 12), (13, 13), (14, 14), (15, 15), (16, 16), (17, 17), (18, 18), (19, 19), (20, 31)]

/-- The input bit that feeds word bit `k` of a format, as (port, bit of the port). -/
def sourceOf (f : Fmt) (k : Nat) : Option (Field × Nat) :=
  match (immSlots f).find? fun p => p.2 == k with
  | some p => some (.imm, p.1)
  | none   => ((fieldSlots f).find? fun q => q.2.2 ≤ k && k ≤ q.2.1).map fun q => (q.1, k - q.2.2)

/-- Bit `k` of an input port. -/
def portBit (p : Ports) : Field → Nat → Bool
  | .opcode, k => p.opcode.getLsbD k
  | .rd, k     => p.rd.getLsbD k
  | .funct3, k => p.funct3.getLsbD k
  | .rs1, k    => p.rs1.getLsbD k
  | .rs2, k    => p.rs2.getLsbD k
  | .funct7, k => p.funct7.getLsbD k
  | .imm, k    => p.imm.getLsbD k

end Sys2Proof.Machine
end

