-- ==== Sys2Proof/Safety.lean ====
section
/-! DEFINITION. What counts as a safe use of the block, in the terms the statements use. -/

namespace Sys2Proof.Machine

/-- The caller's only duty in port form: a `fmt` code from 0 to 5 (70_reset_and_hazards.md R162). -/
abbrev presentable (p : Ports) : Prop :=
  p.fmt.toNat ≤ 5

/-- The output ports that carry a word, with every byte written out as R29 and R131 give it. -/
def carries (w : Word) : Outputs :=
  ⟨true, w, w.extractLsb' 24 8, w.extractLsb' 16 8, w.extractLsb' 8 8, w.extractLsb' 0 8⟩

/-- The ports have settled (R165): the inputs present a descriptor, and the outputs are those R29 gives for
it. -/
def State.settled (s : State) : Prop :=
  ∃ i, decode s.inp = .ok i ∧ s.out = carries (encode i)

/-- An offset with its bit 0 cleared, which is what an SB or UJ word can hold (43_immediate_splitter.md
R119). -/
def evenOffset {n : Nat} (imm : BitVec n) : BitVec n :=
  imm &&& ~~~ 1#n

/-- A descriptor with bit 0 of an SB or UJ offset cleared: two descriptors of one format have the same word
exactly when these agree (R99). -/
def evened : Instr → Instr
  | .encSB op f3 rs1 rs2 imm  => .encSB op f3 rs1 rs2 (evenOffset imm)
  | .encUJ op rd imm          => .encUJ op rd (evenOffset imm)
  | .encR op rd f3 rs1 rs2 f7 => .encR op rd f3 rs1 rs2 f7
  | .encI op rd f3 rs1 imm    => .encI op rd f3 rs1 imm
  | .encS op f3 rs1 rs2 imm   => .encS op f3 rs1 rs2 imm
  | .encU op rd imm           => .encU op rd imm

/-- Two port values that agree on every bit the selected format places in the word, and on `fmt`. -/
def agreeOnUsed (f : Fmt) (p q : Ports) : Prop :=
  p.fmt = q.fmt ∧
    ∀ k < 32, ∀ src ∈ sourceOf f k, portBit p src.1 src.2 = portBit q src.1 src.2

end Sys2Proof.Machine
end

