-- ==== Sys2Proof/Certificates/Slice0/Obligations.lean ====
section
/-! DEFINITION. The statements about the model, each naming the rule of the spec it comes from. A word is
written in them from the spec's layout (`f7 ++ rs2 ++ …`), not by the model's encoders, wherever the
statement is about the layout; `carries w` (Safety.lean) is the output ports with `valid` 1, the word `w`
and its four bytes. -/

open Sys2Proof Sys2Proof.Machine

/-! ## The six encoders -/

/-- R91. For every state and every R descriptor the instruction completes: the outputs carry
funct7, rs2, rs1, funct3, rd, opcode from bit 31 down, and the inputs stay. With the rule's corner cases
(all zeros, all ones, the top bit of funct7) and its worked example. -/
def Obligations.EncRDrivesItsWord : Prop :=
  (∀ (op : BitVec 7) (rd : Reg) (f3 : BitVec 3) (rs1 rs2 : Reg) (f7 : BitVec 7) (s : State),
    exec (.encR op rd f3 rs1 rs2 f7) s = .next ⟨s.inp, carries (f7 ++ rs2 ++ rs1 ++ f3 ++ rd ++ op)⟩
    ∧ (encode (.encR op rd f3 rs1 rs2 f7)).getLsbD 31 = f7.getLsbD 6)
  ∧ (∀ s : State,
    exec (.encR 0 0 0 0 0 0) s = .next ⟨s.inp, ⟨true, 0x00000000, 0x00, 0x00, 0x00, 0x00⟩⟩
    ∧ exec (.encR 127 31 7 31 31 127) s = .next ⟨s.inp, ⟨true, 0xFFFFFFFF, 0xFF, 0xFF, 0xFF, 0xFF⟩⟩
    ∧ exec (.encR 0b0110011 10 0 11 12 0) s = .next ⟨s.inp, ⟨true, 0x00C58533, 0x00, 0xC5, 0x85, 0x33⟩⟩)

/-- R92. For every state and every I descriptor the instruction completes: imm[11:0], rs1, funct3, rd, opcode
from bit 31 down. With the rule's corner cases (imm = -1, -2048, 2047) and its worked example. -/
def Obligations.EncIDrivesItsWord : Prop :=
  (∀ (op : BitVec 7) (rd : Reg) (f3 : BitVec 3) (rs1 : Reg) (imm : BitVec 12) (s : State),
    exec (.encI op rd f3 rs1 imm) s = .next ⟨s.inp, carries (imm ++ rs1 ++ f3 ++ rd ++ op)⟩)
  ∧ (∀ s : State,
    exec (.encI 0 0 0 0 (BitVec.ofInt 12 (-1))) s = .next ⟨s.inp, carries 0xFFF00000⟩
    ∧ exec (.encI 0 0 0 0 (BitVec.ofInt 12 (-2048))) s = .next ⟨s.inp, carries 0x80000000⟩
    ∧ exec (.encI 0 0 0 0 (BitVec.ofInt 12 2047)) s = .next ⟨s.inp, carries 0x7FF00000⟩
    ∧ exec (.encI 0b0010011 1 0 0 (BitVec.ofInt 12 (-1))) s
        = .next ⟨s.inp, ⟨true, 0xFFF00093, 0xFF, 0xF0, 0x00, 0x93⟩⟩)

/-- R93. For every state and every S descriptor the instruction completes: imm[11:5], rs2, rs1, funct3,
imm[4:0], opcode from bit 31 down. With the rule's corner cases (which word bits a part of the immediate can
touch, imm = -1) and its worked example. -/
def Obligations.EncSDrivesItsWord : Prop :=
  (∀ (op : BitVec 7) (f3 : BitVec 3) (rs1 rs2 : Reg) (imm : BitVec 12) (s : State),
    exec (.encS op f3 rs1 rs2 imm) s
      = .next ⟨s.inp, carries (imm.extractLsb' 5 7 ++ rs2 ++ rs1 ++ f3 ++ imm.extractLsb' 0 5 ++ op)⟩)
  ∧ (∀ (lo : BitVec 5) (hi : BitVec 7),
    encode (.encS 0 0 0 0 (0#7 ++ lo)) = 0#20 ++ lo ++ 0#7
    ∧ encode (.encS 0 0 0 0 (hi ++ 0#5)) = hi ++ 0#25)
  ∧ (∀ s : State,
    exec (.encS 0 0 0 0 (BitVec.ofInt 12 (-1))) s = .next ⟨s.inp, carries 0xFE000F80⟩
    ∧ exec (.encS 0b0100011 0b010 2 5 8) s = .next ⟨s.inp, ⟨true, 0x00512423, 0x00, 0x51, 0x24, 0x23⟩⟩)

/-- R94. For every state and every SB descriptor, an odd offset included, the instruction completes: imm[12],
imm[10:5], rs2, rs1, funct3, imm[4:1], imm[11], opcode from bit 31 down. With the rule's corner cases (9 as 8,
the places of imm[11] and imm[12], the extremes) and its worked example. -/
def Obligations.EncSBDrivesItsWord : Prop :=
  (∀ (op : BitVec 7) (f3 : BitVec 3) (rs1 rs2 : Reg) (imm : BitVec 13) (s : State),
    exec (.encSB op f3 rs1 rs2 imm) s
      = .next ⟨s.inp, carries (imm.extractLsb' 12 1 ++ imm.extractLsb' 5 6 ++ rs2 ++ rs1 ++ f3
                                ++ imm.extractLsb' 1 4 ++ imm.extractLsb' 11 1 ++ op)⟩)
  ∧ (∀ (op : BitVec 7) (f3 : BitVec 3) (rs1 rs2 : Reg) (imm : BitVec 13),
    encode (.encSB op f3 rs1 rs2 9) = encode (.encSB op f3 rs1 rs2 8)
    ∧ (encode (.encSB op f3 rs1 rs2 imm)).getLsbD 7 = imm.getLsbD 11
    ∧ (encode (.encSB op f3 rs1 rs2 imm)).getLsbD 31 = imm.getLsbD 12)
  ∧ (∀ s : State,
    exec (.encSB 0 0 0 0 (BitVec.ofInt 13 (-4096))) s = .next ⟨s.inp, carries 0x80000000⟩
    ∧ exec (.encSB 0 0 0 0 (BitVec.ofInt 13 4094)) s = .next ⟨s.inp, carries 0x7E000F80⟩
    ∧ exec (.encSB 0b1100011 0b001 6 0 (BitVec.ofInt 13 (-8))) s
        = .next ⟨s.inp, ⟨true, 0xFE031CE3, 0xFE, 0x03, 0x1C, 0xE3⟩⟩)

/-- R95. For every state and every U descriptor the instruction completes: the 20-bit field unchanged, rd,
opcode from bit 31 down. With the rule's corner cases (0x12345 and 0xFFFFF) and its worked example. -/
def Obligations.EncUDrivesItsWord : Prop :=
  (∀ (op : BitVec 7) (rd : Reg) (imm : BitVec 20) (s : State),
    exec (.encU op rd imm) s = .next ⟨s.inp, carries (imm ++ rd ++ op)⟩)
  ∧ (∀ s : State,
    exec (.encU 0 0 0x12345) s = .next ⟨s.inp, carries 0x12345000⟩
    ∧ exec (.encU 0 0 0xFFFFF) s = .next ⟨s.inp, carries 0xFFFFF000⟩
    ∧ exec (.encU 0b0110111 5 0x12345) s = .next ⟨s.inp, ⟨true, 0x123452B7, 0x12, 0x34, 0x52, 0xB7⟩⟩)

/-- R96. For every state and every UJ descriptor, an odd offset included, the instruction completes: imm[20],
imm[10:1], imm[11], imm[19:12], rd, opcode from bit 31 down. With the rule's corner cases (9 as 8, the places
of imm[11] and imm[20], the extremes, the pattern of -4) and its worked example. -/
def Obligations.EncUJDrivesItsWord : Prop :=
  (∀ (op : BitVec 7) (rd : Reg) (imm : BitVec 21) (s : State),
    exec (.encUJ op rd imm) s
      = .next ⟨s.inp, carries (imm.extractLsb' 20 1 ++ imm.extractLsb' 1 10 ++ imm.extractLsb' 11 1
                                ++ imm.extractLsb' 12 8 ++ rd ++ op)⟩)
  ∧ (∀ (op : BitVec 7) (rd : Reg) (imm : BitVec 21),
    encode (.encUJ op rd 9) = encode (.encUJ op rd 8)
    ∧ (encode (.encUJ op rd imm)).getLsbD 20 = imm.getLsbD 11
    ∧ (encode (.encUJ op rd imm)).getLsbD 31 = imm.getLsbD 20
    ∧ (encode (.encUJ op rd (BitVec.ofInt 21 (-4)))).extractLsb' 12 20 = 0xFFDFF)
  ∧ (∀ s : State,
    exec (.encUJ 0 0 (BitVec.ofInt 21 (-1048576))) s = .next ⟨s.inp, carries 0x80000000⟩
    ∧ exec (.encUJ 0 0 (BitVec.ofInt 21 1048574)) s = .next ⟨s.inp, carries 0x7FFFF000⟩
    ∧ exec (.encUJ 0b1101111 0 (BitVec.ofInt 21 (-4))) s
        = .next ⟨s.inp, ⟨true, 0xFFDFF06F, 0xFF, 0xDF, 0xF0, 0x6F⟩⟩)

/-- R97. The encoder is total and validates nothing: every descriptor, in every state, gives exactly one next
state, whose outputs carry the one word of the descriptor. -/
def Obligations.EveryDescriptorYieldsExactlyOneWord : Prop :=
  ∀ (i : Instr) (s : State), ∃ w : Word,
    exec i s = .next ⟨s.inp, carries w⟩ ∧ encode i = w
    ∧ ∀ t, exec i s = .next t → t = ⟨s.inp, carries w⟩

/-- R7. The block packs whatever field values it receives into their positions: any opcode, funct3, funct7,
register index and immediate is accepted, and each bit of it that the format places stands unchanged at its
position in the driven word. The completion of every format is part of the conclusion. -/
def Obligations.FieldsAreEncodedVerbatim : Prop :=
  ∀ (op : BitVec 7) (rd : Reg) (f3 : BitVec 3) (rs1 rs2 : Reg) (f7 : BitVec 7)
    (imm12 : BitVec 12) (imm13 : BitVec 13) (imm20 : BitVec 20) (imm21 : BitVec 21) (s : State),
    (∃ t, exec (.encR op rd f3 rs1 rs2 f7) s = .next t
      ∧ t.out.word.extractLsb' 0 7 = op ∧ t.out.word.extractLsb' 7 5 = rd
      ∧ t.out.word.extractLsb' 12 3 = f3 ∧ t.out.word.extractLsb' 15 5 = rs1
      ∧ t.out.word.extractLsb' 20 5 = rs2 ∧ t.out.word.extractLsb' 25 7 = f7)
    ∧ (∃ t, exec (.encI op rd f3 rs1 imm12) s = .next t
      ∧ t.out.word.extractLsb' 0 7 = op ∧ t.out.word.extractLsb' 7 5 = rd
      ∧ t.out.word.extractLsb' 12 3 = f3 ∧ t.out.word.extractLsb' 15 5 = rs1
      ∧ t.out.word.extractLsb' 20 12 = imm12)
    ∧ (∃ t, exec (.encS op f3 rs1 rs2 imm12) s = .next t
      ∧ t.out.word.extractLsb' 0 7 = op ∧ t.out.word.extractLsb' 12 3 = f3
      ∧ t.out.word.extractLsb' 15 5 = rs1 ∧ t.out.word.extractLsb' 20 5 = rs2
      ∧ t.out.word.extractLsb' 7 5 = imm12.extractLsb' 0 5
      ∧ t.out.word.extractLsb' 25 7 = imm12.extractLsb' 5 7)
    ∧ (∃ t, exec (.encSB op f3 rs1 rs2 imm13) s = .next t
      ∧ t.out.word.extractLsb' 0 7 = op ∧ t.out.word.extractLsb' 12 3 = f3
      ∧ t.out.word.extractLsb' 15 5 = rs1 ∧ t.out.word.extractLsb' 20 5 = rs2
      ∧ t.out.word.extractLsb' 8 4 = imm13.extractLsb' 1 4
      ∧ t.out.word.extractLsb' 25 6 = imm13.extractLsb' 5 6
      ∧ t.out.word.extractLsb' 7 1 = imm13.extractLsb' 11 1
      ∧ t.out.word.extractLsb' 31 1 = imm13.extractLsb' 12 1)
    ∧ (∃ t, exec (.encU op rd imm20) s = .next t
      ∧ t.out.word.extractLsb' 0 7 = op ∧ t.out.word.extractLsb' 7 5 = rd
      ∧ t.out.word.extractLsb' 12 20 = imm20)
    ∧ (∃ t, exec (.encUJ op rd imm21) s = .next t
      ∧ t.out.word.extractLsb' 0 7 = op ∧ t.out.word.extractLsb' 7 5 = rd
      ∧ t.out.word.extractLsb' 21 10 = imm21.extractLsb' 1 10
      ∧ t.out.word.extractLsb' 20 1 = imm21.extractLsb' 11 1
      ∧ t.out.word.extractLsb' 12 8 = imm21.extractLsb' 12 8
      ∧ t.out.word.extractLsb' 31 1 = imm21.extractLsb' 20 1)

/-- R119. An odd SB or UJ offset raises nothing, and its bit 0 is lost: the instruction completes exactly as
it does with bit 0 cleared, for every offset. Nothing else is lost: reassembly from the driven word (R64) gives
bits 12:1 and 20:1 of the offset back, with bit 0 clear. -/
def Obligations.OddOffsetLosesOnlyBitZero : Prop :=
  (∀ (op : BitVec 7) (f3 : BitVec 3) (rs1 rs2 : Reg) (imm : BitVec 13) (s : State), ∃ t,
    exec (.encSB op f3 rs1 rs2 imm) s = .next t
    ∧ exec (.encSB op f3 rs1 rs2 (imm.extractLsb' 1 12 ++ 0#1)) s = .next t
    ∧ immSB t.out.word = imm.extractLsb' 1 12 ++ 0#1)
  ∧ (∀ (op : BitVec 7) (rd : Reg) (imm : BitVec 21) (s : State), ∃ t,
    exec (.encUJ op rd imm) s = .next t
    ∧ exec (.encUJ op rd (imm.extractLsb' 1 20 ++ 0#1)) s = .next t
    ∧ immUJ t.out.word = imm.extractLsb' 1 20 ++ 0#1)

/-- R99, first half. Two descriptors of one format give the same word exactly when they are equal but for
bit 0 of an SB or UJ offset (`evened` clears that bit and nothing else). -/
def Obligations.SameWordIffEqualUpToDroppedBit : Prop :=
  ∀ d e : Instr, d.fmt = e.fmt → (encode d = encode e ↔ evened d = evened e)

/-- R99, second half, in its strongest form: every word is the word of some descriptor of every format, so
nothing in a word says its format. -/
def Obligations.EveryWordIsAWordOfEveryFormat : Prop :=
  ∀ (w : Word) (f : Fmt), ∃ d : Instr, d.fmt = f ∧ encode d = w

/-! ## The immediate splitter and the decoding direction -/

/-- R121. Reassembly from the encoded word gives every I, S and U immediate back whole, and every SB and UJ
immediate with bit 0 cleared, which is the immediate itself exactly when its bit 0 is 0. -/
def Obligations.ImmediateRoundTrip : Prop :=
  ∀ (op : BitVec 7) (rd : Reg) (f3 : BitVec 3) (rs1 rs2 : Reg),
    (∀ v : BitVec 12, immI (encI op rd f3 rs1 v) = v)
    ∧ (∀ v : BitVec 12, immS (encS op f3 rs1 rs2 v) = v)
    ∧ (∀ v : BitVec 20, immU (encU op rd v) = v)
    ∧ (∀ v : BitVec 13, immSB (encSB op f3 rs1 rs2 v) = v.extractLsb' 1 12 ++ 0#1
        ∧ (immSB (encSB op f3 rs1 rs2 v) = v ↔ v.getLsbD 0 = false))
    ∧ (∀ v : BitVec 21, immUJ (encUJ op rd v) = v.extractLsb' 1 20 ++ 0#1
        ∧ (immUJ (encUJ op rd v) = v ↔ v.getLsbD 0 = false))

/-- R65. The signed ranges of the reassembled immediates, the evenness of the SB and UJ ones, the sign bit at
word bit 31, and the 32-bit immediate of a U field. The last clause is general knowledge, not the source's
(93_implementation_defined.md G3, log entry 12). -/
def Obligations.ReassembledImmediatesSignedRanges : Prop :=
  ∀ w : Word,
    (-2048 ≤ (immI w).toInt ∧ (immI w).toInt ≤ 2047)
    ∧ (-2048 ≤ (immS w).toInt ∧ (immS w).toInt ≤ 2047)
    ∧ (-4096 ≤ (immSB w).toInt ∧ (immSB w).toInt ≤ 4094 ∧ (immSB w).toInt % 2 = 0)
    ∧ (-1048576 ≤ (immUJ w).toInt ∧ (immUJ w).toInt ≤ 1048574 ∧ (immUJ w).toInt % 2 = 0)
    ∧ (immI w).msb = w.getLsbD 31 ∧ (immS w).msb = w.getLsbD 31
    ∧ (immSB w).msb = w.getLsbD 31 ∧ (immUJ w).msb = w.getLsbD 31
    ∧ (immU32 w).toNat = (immU w).toNat * 4096

/-- R118 with the bit tables of R111 to R114 and R116: which immediate bits reach the word, each exactly one
word bit and no two the same, and the word bit of each pair of the table is that immediate bit. -/
def Obligations.SplitterFollowsItsBitTables : Prop :=
  (∀ f : Fmt, ((immSlots f).map Prod.fst).Nodup ∧ ((immSlots f).map Prod.snd).Nodup)
  ∧ (∀ j : Nat,
    (j ∈ (immSlots .i).map Prod.fst ↔ j < 12) ∧ (j ∈ (immSlots .s).map Prod.fst ↔ j < 12)
    ∧ (j ∈ (immSlots .u).map Prod.fst ↔ j < 20)
    ∧ (j ∈ (immSlots .sb).map Prod.fst ↔ 1 ≤ j ∧ j ≤ 12)
    ∧ (j ∈ (immSlots .uj).map Prod.fst ↔ 1 ≤ j ∧ j ≤ 20))
  ∧ (∀ (i : Instr) (p : Nat × Nat), p ∈ immSlots i.fmt →
    (encode i).getLsbD p.2 = (encodePorts i).imm.getLsbD p.1)

/-- R98. Every output bit is a wire from one input bit of the selected format: for every port value with a
format, each of the 32 word bits has a source in the static tables of Machine/Wiring.lean, and is that
port bit. -/
def Obligations.EveryWordBitIsAWire : Prop :=
  ∀ (p : Ports) (i : Instr), decode p = .ok i → ∀ k : Nat, k < 32 →
    ∃ src : Field × Nat, sourceOf i.fmt k = some src ∧ (encode i).getLsbD k = portBit p src.1 src.2

/-- R56 and R13. The encoder on the source's own representation: as a sequence, most significant bit first,
each format's word is its fields' sequences one after another in the order of the layout table. -/
def Obligations.WordSequenceIsTheFieldsInTableOrder : Prop :=
  ∀ (op : BitVec 7) (rd : Reg) (f3 : BitVec 3) (rs1 rs2 : Reg) (f7 : BitVec 7)
    (imm12 : BitVec 12) (imm13 : BitVec 13) (imm20 : BitVec 20) (imm21 : BitVec 21),
    seq (encode (.encR op rd f3 rs1 rs2 f7)) = seq f7 ++ seq rs2 ++ seq rs1 ++ seq f3 ++ seq rd ++ seq op
    ∧ seq (encode (.encI op rd f3 rs1 imm12)) = seq imm12 ++ seq rs1 ++ seq f3 ++ seq rd ++ seq op
    ∧ seq (encode (.encS op f3 rs1 rs2 imm12))
        = (seq imm12).take 7 ++ seq rs2 ++ seq rs1 ++ seq f3 ++ (seq imm12).drop 7 ++ seq op
    ∧ seq (encode (.encSB op f3 rs1 rs2 imm13))
        = [imm13.getLsbD 12] ++ ((seq imm13).drop 2).take 6 ++ seq rs2 ++ seq rs1 ++ seq f3
            ++ ((seq imm13).drop 8).take 4 ++ [imm13.getLsbD 11] ++ seq op
    ∧ seq (encode (.encU op rd imm20)) = seq imm20 ++ seq rd ++ seq op
    ∧ seq (encode (.encUJ op rd imm21))
        = [imm21.getLsbD 20] ++ ((seq imm21).drop 10).take 10 ++ [imm21.getLsbD 11]
            ++ ((seq imm21).drop 1).take 8 ++ seq rd ++ seq op

/-- R10 and R13. Sequence index `i` and bit position `n-1-i` name the same bit, and `seq` and `ofSeq` are
inverse, so a bit vector and its sequence carry the same information. -/
def Obligations.SequenceAndBitVectorCarryTheSameBits : Prop :=
  (∀ (n : Nat) (v : BitVec n),
    (seq v).length = n ∧ ofSeqAs n (seq v) = v
    ∧ ∀ i : Nat, i < n → (seq v)[i]? = some (v.getLsbD (n - 1 - i)))
  ∧ (∀ l : List Bool, seq (ofSeq l) = l)
  ∧ (∀ w : Word, (seq w)[0]? = some (w.getLsbD 31) ∧ (seq w)[31]? = some (w.getLsbD 0))

/-! ## Decoding and encoding agree -/

/-- R27 and R28 (decisions D3 to D5): each `fmt` code 0 to 5 presents the descriptor of its format, built from
the ports that format uses and the low bits of `imm`; the codes 6 and 7 present none. -/
def Obligations.FmtCodeSelectsTheDescriptor : Prop :=
  ∀ (op : BitVec 7) (rd : Reg) (f3 : BitVec 3) (rs1 rs2 : Reg) (f7 : BitVec 7) (imm : BitVec 21),
    decode ⟨0, op, rd, f3, rs1, rs2, f7, imm⟩ = .ok (.encR op rd f3 rs1 rs2 f7)
    ∧ decode ⟨1, op, rd, f3, rs1, rs2, f7, imm⟩ = .ok (.encI op rd f3 rs1 (imm.extractLsb' 0 12))
    ∧ decode ⟨2, op, rd, f3, rs1, rs2, f7, imm⟩ = .ok (.encS op f3 rs1 rs2 (imm.extractLsb' 0 12))
    ∧ decode ⟨3, op, rd, f3, rs1, rs2, f7, imm⟩ = .ok (.encSB op f3 rs1 rs2 (imm.extractLsb' 0 13))
    ∧ decode ⟨4, op, rd, f3, rs1, rs2, f7, imm⟩ = .ok (.encU op rd (imm.extractLsb' 0 20))
    ∧ decode ⟨5, op, rd, f3, rs1, rs2, f7, imm⟩ = .ok (.encUJ op rd imm)
    ∧ decode ⟨6, op, rd, f3, rs1, rs2, f7, imm⟩ = .error (.reservedFmt 6)
    ∧ decode ⟨7, op, rd, f3, rs1, rs2, f7, imm⟩ = .error (.reservedFmt 7)

/-- The port values of a descriptor present that descriptor, for every format and every value of every field,
an odd SB or UJ offset included. -/
def Obligations.DecodeOfEncodedPortsIsTheInstruction : Prop :=
  ∀ i : Instr, decode (encodePorts i) = .ok i

/-- The word direction, for every format: encoding what a word stands for under a format gives the word back,
and what a descriptor's word stands for under its own format is the descriptor, up to the dropped bit 0 of an
SB or UJ offset. So each format's words and its descriptors with even offsets correspond one to one. -/
def Obligations.WordsAndEvenDescriptorsCorrespond : Prop :=
  (∀ (f : Fmt) (w : Word), (decodeAs f w).fmt = f ∧ encode (decodeAs f w) = w ∧ evened (decodeAs f w) = decodeAs f w)
  ∧ (∀ i : Instr, decodeAs i.fmt (encode i) = evened i)

/-- Words written out bit by bit from the layout table of R56, one per format, and the descriptors they stand
for: a sanity check of the decoder that does not go through the encoder. -/
def Obligations.WrittenWordsDecodeAsTheirFields : Prop :=
  decodeAs .r 0b0100000_00011_00010_000_00001_0110011 = .encR 0b0110011 1 0 2 3 0b0100000
  ∧ decodeAs .i 0b011111111111_00110_000_00101_0010011 = .encI 0b0010011 5 0 6 2047
  ∧ decodeAs .s 0b0000000_00101_00010_010_01000_0100011 = .encS 0b0100011 0b010 2 5 8
  ∧ decodeAs .sb 0b1_111111_00000_00110_001_1100_1_1100011 = .encSB 0b1100011 0b001 6 0 0x1FF8
  ∧ decodeAs .u 0b00010010001101000101_00101_0110111 = .encU 0b0110111 5 0x12345
  ∧ decodeAs .uj 0b0_0000000110_0_00000000_00001_1101111 = .encUJ 0b1101111 1 12

/-- The model's own numbering of a table row's instruction (log entries 5 and 7: a design choice, no rule of
the spec): a word with a format's select above it decodes as that format's descriptor of the word, and the
step after it is presented runs what was decoded. -/
def Obligations.TableWordsReachTheStep : Prop :=
  (∀ (f : Fmt) (w : Word), decodeTableWord 35 (f.code ++ w).toNat = some (decodeAs f w))
  ∧ (∀ (s : State) (nbits w : Nat) (i : Instr), decodeTableWord nbits w = some i →
    ∃ t, step (s.withFetchWord nbits w) = .next t ∧ exec i (s.withFetchWord nbits w) = .next t)

/-! ## The block as a whole -/

/-- R20 and R28: when the input ports present a descriptor, a step is the meaning of that descriptor at the
same state, and nothing around it. -/
def Obligations.StepRunsTheDecodedInstruction : Prop :=
  ∀ (s : State) (i : Instr), decode s.inp = .ok i → step s = exec i s

/-- R29 (decision D2): with a `fmt` code of 0 to 5 a step completes, `valid` is 1, the outputs carry the word of the
presented descriptor and its four bytes, and the inputs stay. -/
def Obligations.ValidFmtDrivesWordAndBytes : Prop :=
  ∀ s : State, presentable s.inp →
    ∃ i, decode s.inp = .ok i ∧ validOf s.inp.fmt = true ∧ step s = .next ⟨s.inp, carries (encode i)⟩

/-- R30 and R144 (decision D3): a reserved `fmt` code has `valid` 0 and the block's input is refused, whatever the other
ports hold. -/
def Obligations.ReservedFmtIsRefused : Prop :=
  ∀ s : State, s.inp.fmt = 6 ∨ s.inp.fmt = 7 →
    validOf s.inp.fmt = false ∧ step s = .refused (.reservedFmt s.inp.fmt)

/-- R140, R143 and R144: a step never faults, it completes exactly when the `fmt` code is 0 to 5, and the only
refusal is that of a reserved code. -/
def Obligations.OnlyAReservedFmtStopsTheBlock : Prop :=
  ∀ s : State,
    ((∃ t, step s = .next t) ↔ presentable s.inp)
    ∧ (∀ e, step s ≠ .fault e)
    ∧ (∀ r, step s = .refused r → r = .reservedFmt s.inp.fmt ∧ ¬ presentable s.inp)

/-- R28's two consequences and R118, both ways: two inputs with the same `fmt` of 0 to 5 give the same word
and bytes exactly when they agree on every bit the format's tables place in the word. So unused ports, `imm`
bits above the format's width and a dropped bit 0 have no effect, and every other bit has one. -/
def Obligations.OutputsDependOnExactlyTheUsedBits : Prop :=
  ∀ (f : Fmt) (p q : Ports) (o o' : Outputs), p.fmt = f.code → q.fmt = f.code →
    ∃ t u, step ⟨p, o⟩ = .next t ∧ step ⟨q, o'⟩ = .next u ∧ (t.out = u.out ↔ agreeOnUsed f p q)

/-- R98: the multiplexer over the six words computed in parallel selects the word of the presented descriptor,
for every `fmt` code of 0 to 5, and no word for a reserved code. -/
def Obligations.ParallelMuxSelectsTheEncodedWord : Prop :=
  ∀ p : Ports,
    (∀ i, decode p = .ok i → muxWord p = some (encode i))
    ∧ (∀ e, decode p = .error e → muxWord p = none)

/-- R21 and R161: equal inputs give equal outputs, whatever the outputs were before. -/
def Obligations.EqualInputsGiveEqualOutputs : Prop :=
  ∀ (p : Ports) (o o' : Outputs), step ⟨p, o⟩ = step ⟨p, o'⟩

/-- R29 and R45: whatever the ports held before, after a step they have settled, and another step on the same
inputs changes nothing (every use is idempotent). -/
def Obligations.StepSettlesAndIsIdempotent : Prop :=
  ∀ s t : State, step s = .next t → t.settled ∧ t.inp = s.inp ∧ step t = .next t

/-- R160 and R165: a state has settled, its outputs being the function of its inputs, exactly when a step
leaves it as it is. -/
def Obligations.SettledExactlyWhenStepLeavesIt : Prop :=
  ∀ s : State, s.settled ↔ step s = .next s

/-- R160 at power-up: the outputs are the function of the inputs then too. The input values are the model's
choice (log entry 2: all ports zero). -/
def Obligations.ResetPortsAreSettled : Prop :=
  State.reset.settled ∧ State.reset.inp = ⟨0, 0, 0, 0, 0, 0, 0, 0⟩ ∧ presentable State.reset.inp

/-- R48: the result of each use depends on that use's input alone. In a sequence of uses from any state, what
the caller reads from each is what a single use of the same input from any other state gives; and any
reordering of the uses gives the same results, reordered. That reserved codes may stand in the sequence, and
that the caller goes on after one, is the model's choice (log entry 20): R166 gives such an input no end
state. -/
def Obligations.UsesAreIndependentOfEachOther : Prop :=
  (∀ (ps : List Ports) (s s' : State), uses ps s = ps.map fun p => (use p s').2)
  ∧ (∀ (ps qs : List Ports) (s s' : State), ps.Perm qs → (uses ps s).Perm (uses qs s'))

/-! ## The serializer -/

/-- R131: bit `b` of byte `i` is word bit `24 - 8i + b`; in sequence indices, byte `i` holds the word's bits
`8i` to `8i + 7`, the first of them its most significant. -/
def Obligations.PackedByteHoldsItsEightBits : Prop :=
  ∀ (w : Word) (i : Nat), i < 4 → ∃ byte : Byte,
    [(pack w).1, (pack w).2.1, (pack w).2.2.1, (pack w).2.2.2][i]? = some byte
    ∧ (∀ b : Nat, b < 8 → byte.getLsbD b = w.getLsbD (24 - 8 * i + b))
    ∧ seq byte = ((seq w).drop (8 * i)).take 8

/-- R132: any 32-element bit sequence is valid input. Its four bytes, one after another, are the sequence
again. -/
def Obligations.AnySequenceOf32BitsPacks : Prop :=
  ∀ l : List Bool, l.length = 32 →
    ∃ b0 b1 b2 b3 : Byte, pack (ofSeqAs 32 l) = (b0, b1, b2, b3)
      ∧ seq b0 ++ seq b1 ++ seq b2 ++ seq b3 = l

/-- R135: `pack` and `unpack` are inverse, so `pack` is a bijection onto the 4-tuples of bytes. -/
def Obligations.PackAndUnpackAreInverse : Prop :=
  (∀ w : Word, unpack (pack w) = w) ∧ (∀ b : Byte × Byte × Byte × Byte, pack (unpack b) = b)

/-! ## The Register Encoder and the caller -/

/-- R81: an integer succeeds exactly when it is 0 to 31, and then yields itself as a 5-bit value; every
other integer, of any size and sign, fails with `InvalidRegister`. -/
def Obligations.RegencIntegerSucceedsFrom0To31 : Prop :=
  ∀ n : Int,
    (0 ≤ n ∧ n ≤ 31 → ∃ r : Reg, regenc (.int n) = .ok r ∧ (r.toNat : Int) = n)
    ∧ (n < 0 ∨ 31 < n → regenc (.int n) = .error .invalidRegister)

/-- R84: the integer form is a bijection from 0..31 onto the 5-bit values. -/
def Obligations.RegencIntegerIsABijection : Prop :=
  (∀ i : Nat, i ≤ 31 → ∃ r : Reg, regenc (.int i) = .ok r ∧ r.toNat = i)
  ∧ (∀ r : Reg, ∃ n : Int, regenc (.int n) = .ok r ∧ ∀ m : Int, regenc (.int m) = .ok r → m = n)

/-- R83: as a sequence the result is the index's binary expansion, most significant bit first. -/
def Obligations.RegencOutputIsMostSignificantBitFirst : Prop :=
  ∀ n : Nat, n ≤ 31 → ∃ r : Reg, regenc (.int n) = .ok r ∧ r.toNat = n
    ∧ seq r = [n.testBit 4, n.testBit 3, n.testBit 2, n.testBit 1, n.testBit 0]

/-- R82 (decision D19), the names that parse: `x`, any number of leading zeros and the decimal digits of any
natural number gives what that integer gives, so `x0` to `x31` succeed and every larger name fails. -/
def Obligations.RegisterNamesReadAsDecimal : Prop :=
  ∀ k n : Nat,
    regenc (.str (String.ofList ('x' :: (List.replicate k '0' ++ Nat.toDigits 10 n)))) = regenc (.int n)

/-- R82 (decision D19), the names that do not: a string that is not `x` followed by one or more characters
from `0` to `9` and nothing else fails with `InvalidRegister`. -/
def Obligations.MalformedRegisterNamesFail : Prop :=
  ∀ t : String,
    (¬ ∃ ds : List Char, t.toList = 'x' :: ds ∧ ds ≠ [] ∧ ∀ c ∈ ds, '0' ≤ c ∧ c ≤ '9') →
    regenc (.str t) = .error .invalidRegister

/-- R141, R143, R145 and R163: submitting a request in which any register identifier fails ends in
`InvalidRegister`, whichever failed, and nothing is encoded; if all succeed, the block encodes the descriptor
whose register fields are their results, and completes. That the `Err` result is the outcome `fault` of the
submission is read from the spec's U9 (log entry 8). -/
def Obligations.SubmitFaultsExactlyOnAnInvalidRegister : Prop :=
  ∀ (r : Request) (s : State),
    ((∃ id ∈ r.regIds, regenc id = .error .invalidRegister) → submit r s = .fault .invalidRegister)
    ∧ ((∀ id ∈ r.regIds, regenc id ≠ .error .invalidRegister) →
      ∃ i, r.resolve = .ok i ∧ submit r s = .next ⟨encodePorts i, carries (encode i)⟩)

/-- R80 and R163: the register fields of a resolved request are the Register Encoder's results for its
identifiers, each in its own field, and the other fields are the request's. -/
def Obligations.ResolvedRequestHoldsTheEncodedRegisters : Prop :=
  ∀ (op : BitVec 7) (f3 : BitVec 3) (f7 : BitVec 7) (a b c : RegId) (x y z : Reg)
    (imm12 : BitVec 12) (imm13 : BitVec 13) (imm20 : BitVec 20) (imm21 : BitVec 21),
    regenc a = .ok x → regenc b = .ok y → regenc c = .ok z →
    (Request.encR op a f3 b c f7).resolve = .ok (.encR op x f3 y z f7)
    ∧ (Request.encI op a f3 b imm12).resolve = .ok (.encI op x f3 y imm12)
    ∧ (Request.encS op f3 a b imm12).resolve = .ok (.encS op f3 x y imm12)
    ∧ (Request.encSB op f3 a b imm13).resolve = .ok (.encSB op f3 x y imm13)
    ∧ (Request.encU op a imm20).resolve = .ok (.encU op x imm20)
    ∧ (Request.encUJ op a imm21).resolve = .ok (.encUJ op x imm21)

/-- R142 (decision D10): an untyped descriptor with a field of the wrong width is refused by the name of such
a field, whatever the state; the untyped form of every descriptor is encoded, and completes. That a field the
format does not have counts as width 0, so that bits given for it are refused, is the model's choice (log entry
11): R24 writes "-" there and R142 speaks of declared widths only. -/
def Obligations.WrongWidthFieldIsRefusedByName : Prop :=
  (∀ (r : RawInstr) (s : State), (∃ f, (r.get f).length ≠ (r.fmt.width f).getD 0) →
    ∃ f, (r.get f).length ≠ (r.fmt.width f).getD 0 ∧ submitRaw r s = .refused (.fieldWidth f))
  ∧ (∀ (i : Instr) (s : State), submitRaw i.raw s = .next ⟨encodePorts i, carries (encode i)⟩)

/-! ## The image (the downstream writer) -/

/-- R41 (decision D7), for both values of `imageByteOrder`, every base and every program: byte `k` of the
four places of word `n` is the byte the order gives. R41 gives the places only: that no other address holds a
byte, and that bases and addresses are naturals with no upper bound, is the model's choice (log entry 10). -/
def Obligations.ImageHoldsEachWordAtItsPlace : Prop :=
  ∀ (base : Nat) (ws : List Word),
    (∀ (n k : Nat) (w : Word), ws[n]? = some w → k < 4 →
      (imageOf .lsbFirst base ws).read (base + 4 * n + k) = some (w.extractLsb' (8 * k) 8)
      ∧ (imageOf .msbFirst base ws).read (base + 4 * n + k) = some (w.extractLsb' (24 - 8 * k) 8))
    ∧ (∀ (order : ImageByteOrder) (a : Nat), a < base ∨ base + 4 * ws.length ≤ a →
      (imageOf order base ws).read a = none)

/-- R41: the image is exactly the program's byte stream at consecutive addresses from the base on, so it is in
canonical form and holds four bytes per word. The list form of an image, with no byte at any other address and
no upper bound on addresses, is the model's choice (log entry 10). -/
def Obligations.ImageIsTheByteStreamFromTheBase : Prop :=
  ∀ (order : ImageByteOrder) (base : Nat) (ws : List Word),
    imageOf order base ws = ((streamOf order ws).zipIdx base).map Prod.swap
    ∧ (imageOf order base ws).length = 4 * ws.length

/-- R49: placing each word at its index, in any order, gives the same image as placing them in sequence,
whatever was in the image before. An image with earlier contents, and its canonical form `wf`, are the model's
choice (log entry 10). -/
def Obligations.WordsPlacedInAnyOrderGiveTheSameImage : Prop :=
  ∀ (order : ImageByteOrder) (base : Nat) (m : Image) (ps qs : List (Nat × Word)),
    m.wf → (ps.map Prod.fst).Nodup → ps.Perm qs → placeAll order base m ps = placeAll order base m qs

/-- R4 and R163, the whole flow: a program whose register identifiers all succeed gives the image of its
descriptors' words in instruction order. That one identifier that fails rejects the whole program, with no
image, is the model's choice (log entry 21): R141 and R163 reject the malformed instruction and say nothing of
the others. -/
def Obligations.AssembledProgramIsTheImageOfItsWords : Prop :=
  ∀ (order : ImageByteOrder) (base : Nat) (rs : List Request),
    (∀ ds : List Instr, rs.map Request.resolve = ds.map Except.ok →
      assembleImage order base rs = .ok (imageOf order base (ds.map encode)))
    ∧ ((∃ r ∈ rs, ∃ id ∈ r.regIds, regenc id = .error .invalidRegister) →
      assembleImage order base rs = .error .invalidRegister)
end

