-- ==== Sys2Proof/Laws/Bits.lean ====
section
/-! SUPPORT. What the sequence of a bit vector holds (00_scope.md R10, R11): its length, its elements, and
the sequence of a concatenation. -/

namespace Sys2Proof.Machine

@[simp] theorem seq_length {n : Nat} (v : BitVec n) : (seq v).length = n := by
  simp [seq]

theorem seq_getElem {n : Nat} (v : BitVec n) (i : Nat) (h : i < (seq v).length) :
    (seq v)[i] = v.getMsbD i := by
  simp [seq]

theorem seq_append {m n : Nat} (u : BitVec m) (v : BitVec n) : seq (u ++ v) = seq u ++ seq v := by
  refine List.ext_getElem (by simp) fun i h _ => ?_
  simp only [seq_length] at h
  rw [seq_getElem, List.getElem_append, BitVec.getMsbD_append]
  by_cases hi : i < m
  · simp [seq_getElem, hi, Nat.not_le.mpr hi]
  · simp [seq_getElem, hi, Nat.not_lt.mp hi]

end Sys2Proof.Machine
end

