-- ==== Sys2Proof/Laws/Decode.lean ====
section
/-! SUPPORT. What `decode` can answer: the case analysis that later proofs use instead of unfolding it. -/

namespace Sys2Proof

/-- A `fmt` code selects a format exactly when it is that format's code. -/
theorem Fmt.ofCode_eq_some (c : BitVec 3) (f : Fmt) : Fmt.ofCode c = some f ↔ c = f.code := by
  cases f <;> revert c <;> decide

/-- A `fmt` code selects no format exactly when it is one of the reserved codes 6 and 7. -/
theorem Fmt.ofCode_eq_none (c : BitVec 3) : Fmt.ofCode c = none ↔ c = 6 ∨ c = 7 := by
  revert c; decide

/-- The two outcomes of `decode`, with the ports they come from. -/
theorem decode_cases (p : Ports) :
    (∃ f, p.fmt = f.code ∧ decode p = .ok (p.desc f))
      ∨ ((p.fmt = 6 ∨ p.fmt = 7) ∧ decode p = .error (.reservedFmt p.fmt)) := by
  rcases h : Fmt.ofCode p.fmt with _ | f
  · exact .inr ⟨(Fmt.ofCode_eq_none _).mp h, by simp [decode, h]⟩
  · exact .inl ⟨f, (Fmt.ofCode_eq_some _ _).mp h, by simp [decode, h]⟩

/-- The descriptor the ports present has the format its code selects. -/
@[simp] theorem Ports.desc_fmt (p : Ports) (f : Fmt) : (p.desc f).fmt = f := by
  cases f <;> rfl

/-- The encoder puts the code of the descriptor's format on the `fmt` port. -/
@[simp] theorem encodePorts_fmt (i : Instr) : (encodePorts i).fmt = i.fmt.code := by
  cases i <;> rfl

end Sys2Proof
end

