-- ==== Sys2Proof/Laws/Image.lean ====
section
/-! SUPPORT. The image operations: what each write makes readable, what it leaves, and that every one of them
keeps the canonical form (20_memory.md R41). -/

namespace Sys2Proof.Machine

/-- Reading back one written byte: the byte at its address, and what was there before at any other. -/
theorem Image.read_write (m : Image) (hm : m.wf) (a c : Nat) (b : Byte) :
    (m.write a b).read c = if c = a then some b else m.read c := by
  induction m with
  | nil => simp [write, read]
  | cons e m ih =>
    obtain ⟨d, v⟩ := e
    have ih := ih (List.Pairwise.of_cons hm)
    simp only [write]
    split
    · simp only [read]
    · split
      · subst_vars
        simp only [read]
        split <;> rfl
      · simp only [read]
        split
        · rename_i hne hcd
          rw [if_neg fun h => hne (by omega)]
        · exact ih

/-- The addresses of an image after one write: the written one and those there before. -/
theorem Image.mem_write (m : Image) (a : Nat) (b : Byte) {e : Host.Cell} (h : e ∈ m.write a b) :
    e.1 = a ∨ e ∈ m := by
  induction m with
  | nil => simp_all [write]
  | cons d m ih =>
    simp only [write] at h
    split at h
    · simp only [List.mem_cons] at h ⊢
      rcases h with rfl | h | h <;> simp_all
    · split at h <;> simp only [List.mem_cons] at h ⊢
      · rcases h with rfl | h <;> simp_all
      · rcases h with rfl | h
        · exact .inr (.inl rfl)
        · rcases ih h with h | h
          · exact .inl h
          · exact .inr (.inr h)

/-- One write keeps the canonical form. -/
theorem Image.wf_write (m : Image) (hm : m.wf) (a : Nat) (b : Byte) : (m.write a b).wf := by
  induction m with
  | nil => simp [write, wf]
  | cons d m ih =>
    obtain ⟨h1, h2⟩ := List.pairwise_cons.mp hm
    simp only [write]
    split
    · refine List.pairwise_cons.mpr ⟨fun e he => ?_, hm⟩
      rcases List.mem_cons.mp he with rfl | he
      · assumption
      · exact Nat.lt_trans ‹a < d.1› (h1 e he)
    · split
      · exact List.pairwise_cons.mpr ⟨fun e he => by subst_vars; exact h1 e he, h2⟩
      · refine List.pairwise_cons.mpr ⟨fun e he => ?_, ih h2⟩
        rcases mem_write m a b he with h | h
        · simp only; omega
        · exact h1 e h

/-- Placing consecutive bytes keeps the canonical form. -/
theorem Image.wf_writeBytes (bs : List Byte) (m : Image) (hm : m.wf) (a : Nat) : (m.writeBytes a bs).wf := by
  induction bs generalizing m a with
  | nil => exact hm
  | cons b bs ih => exact ih _ (wf_write m hm a b) _

/-- Placing words keeps the canonical form. -/
theorem wf_placeAll (order : ImageByteOrder) (base : Nat) (ps : List (Nat × Word)) (m : Image) (hm : m.wf) :
    (placeAll order base m ps).wf := by
  induction ps generalizing m with
  | nil => exact hm
  | cons p ps ih => exact ih _ (Image.wf_writeBytes _ m hm _)

/-- The empty image, in which nothing has been placed, is in canonical form. -/
theorem Image.wf_nil : Image.wf [] := List.Pairwise.nil

/-- Reading after consecutive bytes were placed: the byte at its offset, and what was there before outside
them. -/
theorem Image.read_writeBytes (bs : List Byte) (m : Image) (hm : m.wf) (a c : Nat) :
    (m.writeBytes a bs).read c
      = if a ≤ c ∧ c < a + bs.length then bs[c - a]? else m.read c := by
  induction bs generalizing m a with
  | nil => simp [writeBytes]
  | cons b bs ih =>
    rw [writeBytes, ih _ (wf_write m hm a b), read_write m hm]
    simp only [List.length_cons]
    by_cases h : c = a
    · subst h; simp
    · by_cases h' : a + 1 ≤ c
      · have : c - a = (c - (a + 1)) + 1 := by omega
        rw [this, List.getElem?_cons_succ, if_neg h]
        congr 1
        simp only [eq_iff_iff]
        omega
      · rw [if_neg (by omega), if_neg h, if_neg (by omega)]

/-- Two images in canonical form that read the same everywhere are equal. -/
theorem Image.ext_read {m n : Image} (hm : m.wf) (hn : n.wf) (h : ∀ a, m.read a = n.read a) : m = n := by
  have below : ∀ (l : Image) (a : Nat), (∀ e ∈ l, a < e.1) → l.read a = none := by
    intro l a hl
    induction l with
    | nil => rfl
    | cons e l ih =>
      have := hl e (by simp)
      rw [read, if_neg (by omega)]
      exact ih fun x hx => hl x (by simp [hx])
  induction m generalizing n with
  | nil =>
    cases n with
    | nil => rfl
    | cons e n => simpa [read] using h e.1
  | cons d m ih =>
    cases n with
    | nil => simpa [read] using h d.1
    | cons e n =>
      obtain ⟨hd, hm⟩ := List.pairwise_cons.mp hm
      obtain ⟨he, hn⟩ := List.pairwise_cons.mp hn
      have hde : d.1 = e.1 := by
        rcases Nat.lt_trichotomy d.1 e.1 with hlt | heq | hlt
        · have := h d.1
          rw [below (e :: n) d.1 fun x hx => by
            rcases List.mem_cons.mp hx with rfl | hx
            · exact hlt
            · exact Nat.lt_trans hlt (he x hx)] at this
          simp [read] at this
        · exact heq
        · have := h e.1
          rw [below (d :: m) e.1 fun x hx => by
            rcases List.mem_cons.mp hx with rfl | hx
            · exact hlt
            · exact Nat.lt_trans hlt (hd x hx)] at this
          simp [read] at this
      have hv : d.2 = e.2 := by simpa [read, hde] using h d.1
      have hmn : m = n := by
        refine ih hm hn fun a => ?_
        by_cases ha : a = d.1
        · subst ha
          rw [below m d.1 hd, below n d.1 fun x hx => hde ▸ he x hx]
        · simpa [read, ha, hde ▸ ha] using h a
      exact List.cons_eq_cons.mpr ⟨Prod.ext hde hv, hmn⟩

/-- A word takes four bytes of an image under either byte order. -/
@[simp] theorem imageBytes_length (order : ImageByteOrder) (w : Word) : (imageBytes order w).length = 4 := by
  cases order <;> rfl

/-- Every word of an image shares the base's alignment modulo 4 (R44). -/
theorem wordAddr_mod_four (base n : Nat) : wordAddr base n % 4 = base % 4 := by
  simp [wordAddr]

end Sys2Proof.Machine
end

