-- ==== Sys2Proof/Laws/PerInstr.lean ====
section
/-! SUPPORT. The field-width invariant of 10_state.md R24 and R25, one lemma per constructor of Instr: the
untyped form of a typed descriptor has every field at its declared width. -/

namespace Sys2Proof.Laws.FieldWidths

/-- The descriptor's fields have the widths of the table of R24. -/
def Statement (i : Instr) : Prop := i.wellFormed = true

theorem encR (op : BitVec 7) (rd : Reg) (f3 : BitVec 3) (rs1 rs2 : Reg) (f7 : BitVec 7) :
    Statement (.encR op rd f3 rs1 rs2 f7) := by
  simp [Statement, Instr.wellFormed, RawInstr.wellFormed, RawInstr.badField, RawInstr.fieldOk, Field.all,
    Instr.raw, RawInstr.get, Fmt.width]

theorem encI (op : BitVec 7) (rd : Reg) (f3 : BitVec 3) (rs1 : Reg) (imm : BitVec 12) :
    Statement (.encI op rd f3 rs1 imm) := by
  simp [Statement, Instr.wellFormed, RawInstr.wellFormed, RawInstr.badField, RawInstr.fieldOk, Field.all,
    Instr.raw, RawInstr.get, Fmt.width]

theorem encS (op : BitVec 7) (f3 : BitVec 3) (rs1 rs2 : Reg) (imm : BitVec 12) :
    Statement (.encS op f3 rs1 rs2 imm) := by
  simp [Statement, Instr.wellFormed, RawInstr.wellFormed, RawInstr.badField, RawInstr.fieldOk, Field.all,
    Instr.raw, RawInstr.get, Fmt.width]

theorem encSB (op : BitVec 7) (f3 : BitVec 3) (rs1 rs2 : Reg) (imm : BitVec 13) :
    Statement (.encSB op f3 rs1 rs2 imm) := by
  simp [Statement, Instr.wellFormed, RawInstr.wellFormed, RawInstr.badField, RawInstr.fieldOk, Field.all,
    Instr.raw, RawInstr.get, Fmt.width]

theorem encU (op : BitVec 7) (rd : Reg) (imm : BitVec 20) : Statement (.encU op rd imm) := by
  simp [Statement, Instr.wellFormed, RawInstr.wellFormed, RawInstr.badField, RawInstr.fieldOk, Field.all,
    Instr.raw, RawInstr.get, Fmt.width]

theorem encUJ (op : BitVec 7) (rd : Reg) (imm : BitVec 21) : Statement (.encUJ op rd imm) := by
  simp [Statement, Instr.wellFormed, RawInstr.wellFormed, RawInstr.badField, RawInstr.fieldOk, Field.all,
    Instr.raw, RawInstr.get, Fmt.width]

end Sys2Proof.Laws.FieldWidths
end

