-- ==== Sys2Proof/Laws/RegisterEncoder.lean ====
section
/-! SUPPORT. What the Register Encoder can answer (41_register_encoder.md R81, R82), and the arithmetic of its
digit strings. -/

namespace Sys2Proof.Machine

/-- An integer either is 0 to 31 and yields its 5-bit value, or fails. -/
theorem regencInt_cases (n : Int) :
    (0 ≤ n ∧ n ≤ 31 ∧ regencInt n = .ok (BitVec.ofInt 5 n))
      ∨ ((n < 0 ∨ 31 < n) ∧ regencInt n = .error .invalidRegister) := by
  unfold regencInt
  split
  · exact .inl ⟨by tauto, by tauto, rfl⟩
  · exact .inr ⟨by omega, rfl⟩

/-- The two outcomes of the Register Encoder: a register, or `InvalidRegister`. -/
theorem regenc_cases (id : RegId) : (∃ r, regenc id = .ok r) ∨ regenc id = .error .invalidRegister := by
  rcases h : regenc id with ⟨⟩ | r
  · exact .inr rfl
  · exact .inl ⟨r, rfl⟩

/-- A digit is exactly one of the characters from `0` to `9`. -/
theorem isDecimalDigit_iff (c : Char) : isDecimalDigit c = true ↔ '0' ≤ c ∧ c ≤ '9' := by
  simp [isDecimalDigit]

/-- One more digit on the right. -/
theorem decimalValue_concat (ds : List Char) (c : Char) :
    decimalValue (ds ++ [c]) = 10 * decimalValue ds + (c.toNat - '0'.toNat) := by
  simp [decimalValue]

/-- A leading zero does not change the number. -/
theorem decimalValue_zero_cons (ds : List Char) : decimalValue ('0' :: ds) = decimalValue ds := by
  simp [decimalValue]

end Sys2Proof.Machine
end

