-- ==== Sys2Proof/Laws/State.lean ====
section
/-! SUPPORT. One lemma per field per update of the ports, so that no proof unfolds a record update. -/

namespace Sys2Proof.Machine

@[simp] theorem Outputs.ofWord_valid (v : Bool) (w : Word) : (Outputs.ofWord v w).valid = v := rfl
@[simp] theorem Outputs.ofWord_word (v : Bool) (w : Word) : (Outputs.ofWord v w).word = w := rfl
@[simp] theorem Outputs.ofWord_byte0 (v : Bool) (w : Word) : (Outputs.ofWord v w).byte0 = w.extractLsb 31 24 := rfl
@[simp] theorem Outputs.ofWord_byte1 (v : Bool) (w : Word) : (Outputs.ofWord v w).byte1 = w.extractLsb 23 16 := rfl
@[simp] theorem Outputs.ofWord_byte2 (v : Bool) (w : Word) : (Outputs.ofWord v w).byte2 = w.extractLsb 15 8 := rfl
@[simp] theorem Outputs.ofWord_byte3 (v : Bool) (w : Word) : (Outputs.ofWord v w).byte3 = w.extractLsb 7 0 := rfl

@[simp] theorem State.drive_inp (f : Fmt) (w : Word) (s : State) : (s.drive f w).inp = s.inp := rfl
@[simp] theorem State.drive_out (f : Fmt) (w : Word) (s : State) :
    (s.drive f w).out = Outputs.ofWord (validOf f.code) w := rfl

@[simp] theorem State.present_inp (p : Ports) (s : State) : (s.present p).inp = p := rfl
@[simp] theorem State.present_out (p : Ports) (s : State) : (s.present p).out = s.out := rfl

@[simp] theorem State.withFetchWord_inp (s : State) (nbits w : Nat) :
    (s.withFetchWord nbits w).inp = tablePorts nbits w := rfl
@[simp] theorem State.withFetchWord_out (s : State) (nbits w : Nat) :
    (s.withFetchWord nbits w).out = s.out := rfl

end Sys2Proof.Machine
end

