-- ==== Sys2Proof/Laws/Step.lean ====
section
/-! SUPPORT. Everything a step can do, said once. -/

namespace Sys2Proof.Machine

/-- Every format's code has `valid` 1. -/
@[simp] theorem validOf_code (f : Fmt) : validOf f.code = true := by
  cases f <;> rfl

/-- Every meaning drives the outputs with the word of its format and leaves the inputs. -/
theorem exec_drives (i : Instr) (s : State) : exec i s = .next (s.drive i.fmt (encode i)) := by
  cases i <;> rfl

/-- A step drives the word of the descriptor that the inputs present, or refuses a reserved code; there is no
third case. -/
theorem step_cases (s : State) :
    (∃ f, s.inp.fmt = f.code ∧ decode s.inp = .ok (s.inp.desc f)
        ∧ step s = .next (s.drive f (encode (s.inp.desc f))))
      ∨ ((s.inp.fmt = 6 ∨ s.inp.fmt = 7) ∧ step s = .refused (.reservedFmt s.inp.fmt)) := by
  rcases decode_cases s.inp with ⟨f, hf, hd⟩ | ⟨hf, hd⟩
  · exact .inl ⟨f, hf, hd, by simp [step, hd, exec_drives]⟩
  · exact .inr ⟨hf, by simp [step, hd]⟩

/-- What a step that answers a next state did. -/
theorem step_next {s t : State} (h : step s = .next t) :
    ∃ f, s.inp.fmt = f.code ∧ decode s.inp = .ok (s.inp.desc f)
      ∧ t = s.drive f (encode (s.inp.desc f)) := by
  rcases step_cases s with ⟨f, hf, hd, hs⟩ | ⟨_, hs⟩
  · exact ⟨f, hf, hd, by simpa using (h.symm.trans hs)⟩
  · simp [hs] at h

end Sys2Proof.Machine
end

