-- ==== Sys2Proof/Laws/Safety.lean ====
section
/-! SUPPORT. The outputs the model drives, in the terms of Safety.lean. -/

namespace Sys2Proof.Machine

/-- The serializer's bytes are the four slices R131 names. -/
theorem ofWord_eq_carries (w : Word) : Outputs.ofWord true w = carries w := by
  simp [Outputs.ofWord, carries, pack, BitVec.extractLsb]

/-- Driving a format's word leaves the inputs and makes the outputs carry the word. -/
theorem drive_eq_carries (f : Fmt) (w : Word) (s : State) : s.drive f w = ⟨s.inp, carries w⟩ := by
  simp [State.drive, ofWord_eq_carries]

/-- The ports have a `fmt` of 0 to 5 exactly when it is no reserved code. -/
theorem presentable_iff (p : Ports) : presentable p ↔ ¬ (p.fmt = 6 ∨ p.fmt = 7) := by
  unfold presentable
  generalize p.fmt = c
  revert c
  decide

end Sys2Proof.Machine
end

