-- ==== Sys2Proof/Tests/Slice0.lean ====
section
/-! SUPPORT. The model's own tests. Every expected value is transcribed from spec/95_test_vectors.md or a rule's
worked example, or is read off the layout of R56 by hand; none is the model's own answer. The last section
shows, for each statement with hypotheses, a state and operands that meet them all. -/

namespace Sys2Proof.Tests

open Sys2Proof Sys2Proof.Machine

/-- Ports presented to the block at power-up. -/
def presented (p : Ports) : State := State.reset.present p

/-! ## Parameters (R8) -/

theorem test_parameters :
    Word = BitVec Config.wordBits ∧ Reg = BitVec Config.regBits ∧ 2 ^ Config.regBits = Config.numGpr
      ∧ 8 * Config.bytesPerWord = Config.wordBits ∧ Fmt.uj.width .imm = some Config.immPortBits := by
  refine ⟨rfl, rfl, rfl, rfl, rfl⟩

/-! ## The field-width check refuses an ill-formed term, once for each check (R142) -/

/-- A sequence of `n` bits. -/
def bits (n : Nat) : List Bool := List.replicate n false

theorem test_wellFormed_accepts_r : (RawInstr.mk .r (bits 7) (bits 5) (bits 3) (bits 5) (bits 5) (bits 7) []).wellFormed = true := by decide
theorem test_wellFormed_opcode : (RawInstr.mk .r (bits 8) (bits 5) (bits 3) (bits 5) (bits 5) (bits 7) []).badField = some .opcode := by decide
theorem test_wellFormed_rd : (RawInstr.mk .i (bits 7) (bits 4) (bits 3) (bits 5) [] [] (bits 12)).badField = some .rd := by decide
theorem test_wellFormed_funct3 : (RawInstr.mk .s (bits 7) [] (bits 4) (bits 5) (bits 5) [] (bits 12)).badField = some .funct3 := by decide
theorem test_wellFormed_rs1 : (RawInstr.mk .sb (bits 7) [] (bits 3) (bits 6) (bits 5) [] (bits 13)).badField = some .rs1 := by decide
theorem test_wellFormed_rs2 : (RawInstr.mk .r (bits 7) (bits 5) (bits 3) (bits 5) (bits 4) (bits 7) []).badField = some .rs2 := by decide
theorem test_wellFormed_funct7 : (RawInstr.mk .r (bits 7) (bits 5) (bits 3) (bits 5) (bits 5) (bits 6) []).badField = some .funct7 := by decide
theorem test_wellFormed_imm_sb : (RawInstr.mk .sb (bits 7) [] (bits 3) (bits 5) (bits 5) [] (bits 12)).badField = some .imm := by decide
theorem test_wellFormed_imm_uj : (RawInstr.mk .uj (bits 7) (bits 5) [] [] [] [] (bits 20)).badField = some .imm := by decide
/-- A field the format does not have (R24's "-") is refused too. -/
theorem test_wellFormed_absent : (RawInstr.mk .u (bits 7) (bits 5) (bits 3) [] [] [] (bits 20)).badField = some .funct3 := by decide

/-- The refusal names the field and gives no word (R142). -/
theorem test_submitRaw_refuses :
    submitRaw ⟨.i, bits 7, bits 5, bits 3, bits 5, [], [], bits 13⟩ State.reset = .refused (.fieldWidth .imm) := by
  rfl

/-! ## Decoding: one written word per constructor, its bits laid out by hand from the table of R56 -/

/-- funct7 | rs2 | rs1 | funct3 | rd | opcode, `sub x1, x2, x3` of §2.2. -/
theorem test_decode_encR :
    decodeTableWord 35 (0b000 * 2 ^ 32 + 0b0100000_00011_00010_000_00001_0110011)
      = some (.encR 0b0110011 1 0b000 2 3 0b0100000) := by decide

/-- imm[11:0] | rs1 | funct3 | rd | opcode, `lw x5, 8(x2)` of §2.3. -/
theorem test_decode_encI :
    decodeTableWord 35 (0b001 * 2 ^ 32 + 0b000000001000_00010_010_00101_0000011)
      = some (.encI 0b0000011 5 0b010 2 8) := by decide

/-- imm[11:5] | rs2 | rs1 | funct3 | imm[4:0] | opcode, `sb x1, -1(x2)` of §2.4. -/
theorem test_decode_encS :
    decodeTableWord 35 (0b010 * 2 ^ 32 + 0b1111111_00001_00010_000_11111_0100011)
      = some (.encS 0b0100011 0b000 2 1 0xFFF) := by decide

/-- imm[12] imm[10:5] | rs2 | rs1 | funct3 | imm[4:1] imm[11] | opcode, `bne x6, x0, -8` of §2.5. -/
theorem test_decode_encSB :
    decodeTableWord 35 (0b011 * 2 ^ 32 + 0b1_111111_00000_00110_001_1100_1_1100011)
      = some (.encSB 0b1100011 0b001 6 0 0x1FF8) := by decide

/-- imm[31:12] | rd | opcode, `lui x5, 0x12345` of §2.6. -/
theorem test_decode_encU :
    decodeTableWord 35 (0b100 * 2 ^ 32 + 0b00010010001101000101_00101_0110111)
      = some (.encU 0b0110111 5 0x12345) := by decide

/-- imm[20] imm[10:1] imm[11] imm[19:12] | rd | opcode, `jal x1, +12` of §2.7. -/
theorem test_decode_encUJ :
    decodeTableWord 35 (0b101 * 2 ^ 32 + 0b0_0000000110_0_00000000_00001_1101111)
      = some (.encUJ 0b1101111 1 12) := by decide

/-- The reserved selects 6 and 7 decode to nothing (R27). -/
theorem test_decode_reserved : decodeTableWord 35 (6 * 2 ^ 32 + 19) = none ∧ decodeTableWord 35 (7 * 2 ^ 32 + 19) = none := by decide

/-- A word of 32 bits has no select bits, so its select is 0 (log entry 5). -/
theorem test_decode_32_bits_is_r : decodeTableWord 32 0x00C58533 = some (.encR 0b0110011 10 0 11 12 0) := by decide

/-- The reassembled immediates of §2.9. -/
theorem test_reassembly :
    immI 0x80030293 = 0x800 ∧ immS 0x00512423 = 0x008 ∧ immSB 0xFE031CE3 = 0x1FF8 ∧ immSB 0x80000063 = 0x1000
      ∧ immU 0x123452B7 = 0x12345 ∧ immUJ 0xFFDFF06F = 0x1FFFFC ∧ immUJ 0x7FFFF06F = 0x0FFFFE := by decide

/-! ## One step per encoder, on the port-level vectors of §2.11 where there is one (unused ports set) -/

/-- The corrected worked example of R91 (90_conflicts.md C1). -/
theorem test_step_encR :
    step (presented ⟨0, 0b0110011, 10, 0, 11, 12, 0, 0x1FFFFF⟩)
      = .next ⟨⟨0, 0b0110011, 10, 0, 11, 12, 0, 0x1FFFFF⟩, ⟨true, 0x00C58533, 0x00, 0xC5, 0x85, 0x33⟩⟩ := by rfl

theorem test_step_encI :
    step (presented ⟨1, 0b0010011, 1, 0, 0, 31, 0b1111111, 0x1FFFFF⟩)
      = .next ⟨⟨1, 0b0010011, 1, 0, 0, 31, 0b1111111, 0x1FFFFF⟩, ⟨true, 0xFFF00093, 0xFF, 0xF0, 0x00, 0x93⟩⟩ := by rfl

theorem test_step_encS :
    step (presented ⟨2, 0b0100011, 31, 0b010, 2, 5, 0b1111111, 0x000008⟩)
      = .next ⟨⟨2, 0b0100011, 31, 0b010, 2, 5, 0b1111111, 0x000008⟩, ⟨true, 0x00512423, 0x00, 0x51, 0x24, 0x23⟩⟩ := by rfl

theorem test_step_encSB :
    step (presented ⟨3, 0b1100011, 31, 0b001, 6, 0, 0, 0x1FFFF8⟩)
      = .next ⟨⟨3, 0b1100011, 31, 0b001, 6, 0, 0, 0x1FFFF8⟩, ⟨true, 0xFE031CE3, 0xFE, 0x03, 0x1C, 0xE3⟩⟩ := by rfl

theorem test_step_encU :
    step (presented ⟨4, 0b0110111, 5, 0, 0, 0, 0, 0x112345⟩)
      = .next ⟨⟨4, 0b0110111, 5, 0, 0, 0, 0, 0x112345⟩, ⟨true, 0x123452B7, 0x12, 0x34, 0x52, 0xB7⟩⟩ := by rfl

/-- `jal x1, 9` of §2.7: the odd offset loses bit 0. -/
theorem test_step_encUJ :
    step (presented ⟨5, 0b1101111, 1, 0, 0, 0, 0, 9⟩)
      = .next ⟨⟨5, 0b1101111, 1, 0, 0, 0, 0, 9⟩, ⟨true, 0x008000EF, 0x00, 0x80, 0x00, 0xEF⟩⟩ := by rfl

theorem test_step_reserved :
    step (presented ⟨6, 0, 0, 0, 0, 0, 0, 0⟩) = .refused (.reservedFmt 6)
      ∧ step (presented ⟨7, 127, 31, 7, 31, 31, 127, 0x1FFFFF⟩) = .refused (.reservedFmt 7) := by
  exact ⟨rfl, rfl⟩

/-- Presenting a table-numbered instruction makes the next step run it. -/
theorem test_withFetchWord :
    step (State.reset.withFetchWord 32 0x403100B3)
      = .next ⟨⟨0, 0b0110011, 1, 0, 2, 3, 0b0100000, 0⟩, ⟨true, 0x403100B3, 0x40, 0x31, 0x00, 0xB3⟩⟩ := by rfl

/-! ## The one-hot vectors of §2.8: the word with only immediate bit `k` set, for every `k` of the format -/

theorem test_onehot_I :
    (List.range 12).map (fun k => encI 0 0 0 0 (BitVec.ofNat 12 (2 ^ k)))
      = [0x00100000, 0x00200000, 0x00400000, 0x00800000, 0x01000000, 0x02000000, 0x04000000, 0x08000000,
         0x10000000, 0x20000000, 0x40000000, 0x80000000] := by decide

theorem test_onehot_S :
    (List.range 12).map (fun k => encS 0 0 0 0 (BitVec.ofNat 12 (2 ^ k)))
      = [0x00000080, 0x00000100, 0x00000200, 0x00000400, 0x00000800, 0x02000000, 0x04000000, 0x08000000,
         0x10000000, 0x20000000, 0x40000000, 0x80000000] := by decide

theorem test_onehot_SB :
    (List.range 13).map (fun k => encSB 0 0 0 0 (BitVec.ofNat 13 (2 ^ k)))
      = [0x00000000, 0x00000100, 0x00000200, 0x00000400, 0x00000800, 0x02000000, 0x04000000, 0x08000000,
         0x10000000, 0x20000000, 0x40000000, 0x00000080, 0x80000000] := by decide

theorem test_onehot_U :
    (List.range 20).map (fun k => encU 0 0 (BitVec.ofNat 20 (2 ^ k)))
      = [0x00001000, 0x00002000, 0x00004000, 0x00008000, 0x00010000, 0x00020000, 0x00040000, 0x00080000,
         0x00100000, 0x00200000, 0x00400000, 0x00800000, 0x01000000, 0x02000000, 0x04000000, 0x08000000,
         0x10000000, 0x20000000, 0x40000000, 0x80000000] := by decide

theorem test_onehot_UJ :
    (List.range 21).map (fun k => encUJ 0 0 (BitVec.ofNat 21 (2 ^ k)))
      = [0x00000000, 0x00200000, 0x00400000, 0x00800000, 0x01000000, 0x02000000, 0x04000000, 0x08000000,
         0x10000000, 0x20000000, 0x40000000, 0x00100000, 0x00001000, 0x00002000, 0x00004000, 0x00008000,
         0x00010000, 0x00020000, 0x00040000, 0x00080000, 0x80000000] := by decide

/-! ## The serializer (R137, §2.10) and the Register Encoder (R85, R86) -/

theorem test_pack_mixed : pack 0xA66B11EF = (0xA6, 0x6B, 0x11, 0xEF) ∧ pack 0x80000001 = (0x80, 0x00, 0x00, 0x01) := by decide

theorem test_regenc_bits : (regencInt 10).map seq = .ok [false, true, false, true, false] := by rfl

theorem test_regenc_int_bounds :
    regenc (.int 31) = .ok 31 ∧ regenc (.int 32) = .error .invalidRegister ∧ regenc (.int (-1)) = .error .invalidRegister := by
  exact ⟨rfl, rfl, rfl⟩

theorem test_regenc_names_ok :
    regenc (.str "x0") = .ok 0 ∧ regenc (.str "x31") = .ok 31 ∧ regenc (.str "x05") = .ok 5 ∧ regenc (.str "x00031") = .ok 31 := by
  exact ⟨rfl, rfl, rfl, rfl⟩

theorem test_regenc_names_fail :
    ["x32", "x", "x-1", "X5", " x5", "x5 ", "x1a", "a0", "zero", "sp", ""].all (fun t => regenc (.str t) matches .error .invalidRegister)
      = true := by rfl

/-! ## The caller: an instruction from register names, and program P3's last two words as an image (§3) -/

theorem test_submit_names :
    submit (.encR 0b0110011 (.str "x10") 0 (.str "x11") (.str "x12") 0) State.reset
      = .next ⟨⟨0, 0b0110011, 10, 0, 11, 12, 0, 0⟩, ⟨true, 0x00C58533, 0x00, 0xC5, 0x85, 0x33⟩⟩ := by rfl

theorem test_submit_invalid :
    submit (.encR 0b0110011 (.str "x10") 0 (.int 32) (.str "sp") 0) State.reset = .fault .invalidRegister := by rfl

/-- `add x10, x10, x10` and `jalr x0, 0(x1)` of P3, at base 0x10, least significant byte first. -/
theorem test_image_lsbFirst :
    assembleImage .lsbFirst 0x10 [.encR 0b0110011 (.int 10) 0 (.int 10) (.int 10) 0, .encI 0b1100111 (.int 0) 0 (.int 1) 0]
      = .ok [(0x10, 0x33), (0x11, 0x05), (0x12, 0xA5), (0x13, 0x00), (0x14, 0x67), (0x15, 0x80), (0x16, 0x00), (0x17, 0x00)] := by
  rfl

/-- P1's first word, most significant byte first (§3, last paragraph). -/
theorem test_image_msbFirst :
    assembleImage .msbFirst 0 [.encI 0b0010011 (.int 5) 0 (.int 0) 0] = .ok [(0, 0x00), (1, 0x00), (2, 0x02), (3, 0x93)] := by
  rfl

/-! ## Witnesses: for each statement with hypotheses, values that meet all of them -/

/-- SameWordIffEqualUpToDroppedBit: two descriptors of one format, different but for the dropped bit. -/
theorem witness_same_format : (Instr.encSB 99 0 1 2 8).fmt = (Instr.encSB 99 0 1 2 9).fmt ∧ Instr.encSB 99 0 1 2 8 ≠ .encSB 99 0 1 2 9 := by decide

/-- SplitterFollowsItsBitTables: the first and last pairs of a table. -/
theorem witness_table_pair :
    (1, 21) ∈ immSlots (Instr.encUJ 111 0 2).fmt ∧ (20, 31) ∈ immSlots (Instr.encUJ 111 0 2).fmt := by decide

/-- EveryWordBitIsAWire, StepRunsTheDecodedInstruction and ParallelMuxSelectsTheEncodedWord: ports that present
a descriptor, the bounds of the bit index, and ports that are rejected. -/
theorem witness_decode_ok : decode ⟨5, 111, 1, 0, 0, 0, 0, 9⟩ = .ok (.encUJ 111 1 9) ∧ 0 < 32 ∧ 31 < 32 := ⟨rfl, by decide, by decide⟩
theorem witness_decode_error : decode ⟨7, 0, 0, 0, 0, 0, 0, 0⟩ = .error (.reservedFmt 7) := rfl

/-- SequenceAndBitVectorCarryTheSameBits: the bounds of the index. -/
theorem witness_seq_index : 0 < 5 ∧ 4 < 5 ∧ (seq (10 : BitVec 5))[4]? = some false := by decide

/-- TableWordsReachTheStep: a table word that decodes. -/
theorem witness_table_word : decodeTableWord 32 0xFFFFFFFF = some (.encR 127 31 7 31 31 127) := by decide

/-- ValidFmtDrivesWordAndBytes: the bounds of the `fmt` range. -/
theorem witness_presentable : presentable (presented ⟨0, 0, 0, 0, 0, 0, 0, 0⟩).inp ∧ presentable (presented ⟨5, 0, 0, 0, 0, 0, 0, 0⟩).inp := by decide

/-- ReservedFmtIsRefused: each of the two codes. -/
theorem witness_reserved : (presented ⟨6, 1, 2, 3, 4, 5, 6, 7⟩).inp.fmt = 6 ∧ (presented ⟨7, 1, 2, 3, 4, 5, 6, 7⟩).inp.fmt = 7 := by decide

/-- OnlyAReservedFmtStopsTheBlock: a step that refuses. -/
theorem witness_refusal : step (presented ⟨6, 0, 0, 0, 0, 0, 0, 0⟩) = .refused (.reservedFmt 6) := rfl

/-- OutputsDependOnExactlyTheUsedBits: two different inputs of one format. -/
theorem witness_same_fmt :
    (Ports.mk 3 99 31 1 6 0 0 0x1FFFF8).fmt = Fmt.sb.code ∧ (Ports.mk 3 99 0 1 6 0 127 0x001FF9).fmt = Fmt.sb.code := by decide

/-- StepSettlesAndIsIdempotent: a step that answers a next state. -/
theorem witness_step_next :
    step (presented ⟨4, 55, 31, 0, 0, 0, 0, 0xFFFFF⟩)
      = .next ⟨⟨4, 55, 31, 0, 0, 0, 0, 0xFFFFF⟩, ⟨true, 0xFFFFFFB7, 0xFF, 0xFF, 0xFF, 0xB7⟩⟩ := rfl

/-- UsesAreIndependentOfEachOther: two orders of two uses, one of them of a reserved code. -/
theorem witness_uses_perm :
    List.Perm [Ports.mk 0 1 2 3 4 5 6 7, Ports.mk 6 0 0 0 0 0 0 0] [Ports.mk 6 0 0 0 0 0 0 0, Ports.mk 0 1 2 3 4 5 6 7] := by decide

/-- PackedByteHoldsItsEightBits: the bounds of the byte and bit indices. -/
theorem witness_byte_index : 0 < 4 ∧ 3 < 4 ∧ 0 < 8 ∧ 7 < 8 := by decide

/-- AnySequenceOf32BitsPacks: a sequence of 32 bits. -/
theorem witness_sequence32 : (List.replicate 31 true ++ [false]).length = 32 := by decide

/-- RegencIntegerSucceedsFrom0To31: both ends of the valid range, and both first integers outside it. -/
theorem witness_regenc_range : (0 ≤ (0 : Int) ∧ (0 : Int) ≤ 31) ∧ (0 ≤ (31 : Int) ∧ (31 : Int) ≤ 31) ∧ (-1 : Int) < 0 ∧ (31 : Int) < 32 := by decide

/-- RegencIntegerIsABijection and RegencOutputIsMostSignificantBitFirst: the bounds of the index, and an integer
that yields a given register. -/
theorem witness_regenc_index : 0 ≤ 31 ∧ 31 ≤ 31 ∧ regenc (.int 31) = .ok 31 := ⟨by decide, by decide, rfl⟩

/-- MalformedRegisterNamesFail: a string whose characters do not have the form. -/
theorem witness_malformed_name : ¬ ∃ ds : List Char, "X5".toList = 'x' :: ds ∧ ds ≠ [] ∧ ∀ c ∈ ds, '0' ≤ c ∧ c ≤ '9' := by
  rintro ⟨ds, h, -⟩
  simp at h

/-- SubmitFaultsExactlyOnAnInvalidRegister: a request with an invalid identifier, and one with none. -/
theorem witness_request_invalid :
    ∃ id ∈ (Request.encS 35 2 (.int 31) (.int 32) 8).regIds, regenc id = .error .invalidRegister :=
  ⟨.int 32, by decide, rfl⟩
theorem witness_request_valid :
    ∀ id ∈ (Request.encS 35 2 (.int 0) (.int 31) 8).regIds, regenc id ≠ .error .invalidRegister := by
  intro id hid
  simp only [Request.regIds, List.mem_cons, List.not_mem_nil, or_false] at hid
  rcases hid with rfl | rfl <;> simp [regenc, regencInt]

/-- ResolvedRequestHoldsTheEncodedRegisters: three identifiers that succeed. -/
theorem witness_three_registers : regenc (.int 0) = .ok 0 ∧ regenc (.str "x31") = .ok 31 ∧ regenc (.int 7) = .ok 7 := ⟨rfl, rfl, rfl⟩

/-- WrongWidthFieldIsRefusedByName: a field one bit short. -/
theorem witness_wrong_width :
    ∃ f, ((RawInstr.mk .u (bits 7) (bits 5) [] [] [] [] (bits 19)).get f).length ≠ (Fmt.u.width f).getD 0 :=
  ⟨.imm, by decide⟩

/-- ImageHoldsEachWordAtItsPlace: the last word, the first and last of its bytes, and the addresses next to the
image on both sides. -/
theorem witness_image_place :
    [(1 : Word), 2][1]? = some 2 ∧ 0 < 4 ∧ 3 < 4 ∧ 15 < 16 ∧ 16 + 4 * [(1 : Word), 2].length ≤ 24 := by decide

/-- WordsPlacedInAnyOrderGiveTheSameImage: an image in canonical form and two orders of two numbered words. -/
theorem witness_placing_orders :
    Image.wf [(3, 0xFF), (5, 0x00)] ∧ ([(0, (1 : Word)), (7, 2)].map Prod.fst).Nodup
      ∧ List.Perm [(0, (1 : Word)), (7, 2)] [(7, 2), (0, 1)] := by decide

/-- AssembledProgramIsTheImageOfItsWords: a program whose identifiers succeed, and one that is rejected. -/
theorem witness_program_ok :
    [Request.encU 55 (.int 10) 0x10].map Request.resolve = [Instr.encU 55 10 0x10].map Except.ok := rfl
theorem witness_program_rejected :
    ∃ r ∈ [Request.encU 55 (.int 10) 0x10, .encU 55 (.int 32) 0], ∃ id ∈ r.regIds, regenc id = .error .invalidRegister :=
  ⟨.encU 55 (.int 32) 0, by decide, .int 32, by decide, rfl⟩

end Sys2Proof.Tests
end

/-! PROOF. The statements of the scope chapter (00_scope.md): the bits of a sequence (R10, R13), the fields of a
driven word (R7), and the image of a program of requests (R4). -/

namespace Sys2Proof.Machine

open BitVec (extractLsb'_append_eq_of_le extractLsb'_append_eq_of_add_le)

/-! ## A bit vector and its sequence -/

theorem seq_getElem? {n : Nat} (v : BitVec n) {i : Nat} (hi : i < n) :
    (seq v)[i]? = some (v.getLsbD (n - 1 - i)) := by
  rw [List.getElem?_eq_getElem (by simpa using hi), seq_getElem]
  simp [BitVec.getMsbD, hi]

@[simp] theorem seq_ofSeq (l : List Bool) : seq (ofSeq l) = l := by
  refine List.ext_getElem (by simp) fun i _ hi => ?_
  rw [seq_getElem]
  simp [ofSeq, BitVec.getMsbD_ofBoolListBE, hi]

@[simp] theorem ofSeqAs_seq {n : Nat} (v : BitVec n) : ofSeqAs n (seq v) = v := by
  refine BitVec.eq_of_getLsbD_eq fun i hi => ?_
  have hrev : n - 1 - (n - 1 - i) = i := by omega
  have hlt : n - 1 - i < n := by omega
  simp [ofSeqAs, ofSeq, seq_getElem, BitVec.getMsbD, hi, hlt, hrev]

/-! ## The fields of each format's word, read back at their fixed positions (R57 to R62)

A slice of a concatenation is a slice of its high or of its low part. `Nat.reduceAdd` is kept out of the `simp` calls
because it would hide the two parts' widths, by which those two library lemmas apply; in the SB format such a width
is itself a sum, which `omega` compares. -/

theorem encR_fields (op : BitVec 7) (rd : Reg) (f3 : BitVec 3) (rs1 rs2 : Reg) (f7 : BitVec 7) :
    (encR op rd f3 rs1 rs2 f7).extractLsb' 0 7 = op
      ∧ (encR op rd f3 rs1 rs2 f7).extractLsb' 7 5 = rd
      ∧ (encR op rd f3 rs1 rs2 f7).extractLsb' 12 3 = f3
      ∧ (encR op rd f3 rs1 rs2 f7).extractLsb' 15 5 = rs1
      ∧ (encR op rd f3 rs1 rs2 f7).extractLsb' 20 5 = rs2
      ∧ (encR op rd f3 rs1 rs2 f7).extractLsb' 25 7 = f7 := by
  simp [encR, extractLsb'_append_eq_of_le, extractLsb'_append_eq_of_add_le, -Nat.reduceAdd]

theorem encI_fields (op : BitVec 7) (rd : Reg) (f3 : BitVec 3) (rs1 : Reg) (imm : BitVec 12) :
    (encI op rd f3 rs1 imm).extractLsb' 0 7 = op
      ∧ (encI op rd f3 rs1 imm).extractLsb' 7 5 = rd
      ∧ (encI op rd f3 rs1 imm).extractLsb' 12 3 = f3
      ∧ (encI op rd f3 rs1 imm).extractLsb' 15 5 = rs1
      ∧ (encI op rd f3 rs1 imm).extractLsb' 20 12 = imm := by
  simp [encI, splitI, BitVec.extractLsb, extractLsb'_append_eq_of_le, extractLsb'_append_eq_of_add_le,
    -Nat.reduceAdd]

theorem encS_fields (op : BitVec 7) (f3 : BitVec 3) (rs1 rs2 : Reg) (imm : BitVec 12) :
    (encS op f3 rs1 rs2 imm).extractLsb' 0 7 = op
      ∧ (encS op f3 rs1 rs2 imm).extractLsb' 12 3 = f3
      ∧ (encS op f3 rs1 rs2 imm).extractLsb' 15 5 = rs1
      ∧ (encS op f3 rs1 rs2 imm).extractLsb' 20 5 = rs2
      ∧ (encS op f3 rs1 rs2 imm).extractLsb' 7 5 = imm.extractLsb' 0 5
      ∧ (encS op f3 rs1 rs2 imm).extractLsb' 25 7 = imm.extractLsb' 5 7 := by
  simp [encS, splitS, BitVec.extractLsb, extractLsb'_append_eq_of_le, extractLsb'_append_eq_of_add_le,
    -Nat.reduceAdd]

theorem encSB_fields (op : BitVec 7) (f3 : BitVec 3) (rs1 rs2 : Reg) (imm : BitVec 13) :
    (encSB op f3 rs1 rs2 imm).extractLsb' 0 7 = op
      ∧ (encSB op f3 rs1 rs2 imm).extractLsb' 12 3 = f3
      ∧ (encSB op f3 rs1 rs2 imm).extractLsb' 15 5 = rs1
      ∧ (encSB op f3 rs1 rs2 imm).extractLsb' 20 5 = rs2
      ∧ (encSB op f3 rs1 rs2 imm).extractLsb' 8 4 = imm.extractLsb' 1 4
      ∧ (encSB op f3 rs1 rs2 imm).extractLsb' 25 6 = imm.extractLsb' 5 6
      ∧ (encSB op f3 rs1 rs2 imm).extractLsb' 7 1 = imm.extractLsb' 11 1
      ∧ (encSB op f3 rs1 rs2 imm).extractLsb' 31 1 = imm.extractLsb' 12 1 := by
  simp (disch := omega) [encSB, splitSB, BitVec.extractLsb, extractLsb'_append_eq_of_le,
    extractLsb'_append_eq_of_add_le, -Nat.reduceAdd]

theorem encU_fields (op : BitVec 7) (rd : Reg) (imm : BitVec 20) :
    (encU op rd imm).extractLsb' 0 7 = op
      ∧ (encU op rd imm).extractLsb' 7 5 = rd
      ∧ (encU op rd imm).extractLsb' 12 20 = imm := by
  simp [encU, splitU, BitVec.extractLsb, extractLsb'_append_eq_of_le, extractLsb'_append_eq_of_add_le,
    -Nat.reduceAdd]

theorem encUJ_fields (op : BitVec 7) (rd : Reg) (imm : BitVec 21) :
    (encUJ op rd imm).extractLsb' 0 7 = op
      ∧ (encUJ op rd imm).extractLsb' 7 5 = rd
      ∧ (encUJ op rd imm).extractLsb' 21 10 = imm.extractLsb' 1 10
      ∧ (encUJ op rd imm).extractLsb' 20 1 = imm.extractLsb' 11 1
      ∧ (encUJ op rd imm).extractLsb' 12 8 = imm.extractLsb' 12 8
      ∧ (encUJ op rd imm).extractLsb' 31 1 = imm.extractLsb' 20 1 := by
  simp [encUJ, splitUJ, BitVec.extractLsb, extractLsb'_append_eq_of_le, extractLsb'_append_eq_of_add_le,
    -Nat.reduceAdd]

/-! ## Resolving and assembling requests -/

theorem except_bind_eq_ok {ε α β : Type} {x : Except ε α} {f : α → Except ε β} {b : β} :
    x >>= f = .ok b ↔ ∃ a, x = .ok a ∧ f a = .ok b := by
  cases x <;> simp [bind, Except.bind]

/-- A request resolves exactly when each of its register identifiers does. -/
theorem resolve_eq_ok_iff (r : Request) :
    (∃ i, r.resolve = .ok i) ↔ ∀ id ∈ r.regIds, ∃ x, regenc id = .ok x := by
  cases r <;> simp [Request.resolve, Request.regIds, except_bind_eq_ok, pure, Except.pure]

/-- One identifier that fails makes the request fail. -/
theorem resolve_eq_error {r : Request} (h : ∃ id ∈ r.regIds, regenc id = .error .invalidRegister) :
    r.resolve = .error .invalidRegister := by
  obtain ⟨id, hid, herr⟩ := h
  rcases hr : r.resolve with ⟨⟨⟩⟩ | i
  · rfl
  · obtain ⟨x, hx⟩ := (resolve_eq_ok_iff r).mp ⟨i, hr⟩ id hid
    simp [herr] at hx

theorem assemble_cons (r : Request) (rs : List Request) :
    assemble (r :: rs) = r.resolve >>= fun i => assemble rs >>= fun ws => .ok (encode i :: ws) := rfl

theorem assemble_eq_ok {rs : List Request} {ds : List Instr} (h : rs.map Request.resolve = ds.map .ok) :
    assemble rs = .ok (ds.map encode) := by
  induction rs generalizing ds with
  | nil =>
    obtain rfl : ds = [] := by simpa using h.symm
    rfl
  | cons r rs ih =>
    obtain ⟨d, ds, rfl, hr, hrs⟩ := List.map_eq_cons_iff.mp h.symm
    simp [assemble_cons, hr.symm, ih hrs.symm, bind, Except.bind]

theorem assemble_eq_error {rs : List Request} (h : ∃ r ∈ rs, r.resolve = .error .invalidRegister) :
    assemble rs = .error .invalidRegister := by
  induction rs with
  | nil => simp at h
  | cons r rs ih =>
    rcases hr : r.resolve with ⟨⟨⟩⟩ | i
    · simp [assemble_cons, hr, bind, Except.bind]
    · simp [assemble_cons, hr, bind, Except.bind, ih (by simpa [hr] using h)]

/-! ## The statements -/

/-- Settles O8: every meaning drives its encoder's word (`exec_drives`), and each field reads back from that word. -/
theorem fieldsAreEncodedVerbatim : Obligations.FieldsAreEncodedVerbatim := by
  intro op rd f3 rs1 rs2 f7 imm12 imm13 imm20 imm21 s
  exact ⟨⟨_, exec_drives _ s, encR_fields op rd f3 rs1 rs2 f7⟩,
    ⟨_, exec_drives _ s, encI_fields op rd f3 rs1 imm12⟩,
    ⟨_, exec_drives _ s, encS_fields op f3 rs1 rs2 imm12⟩,
    ⟨_, exec_drives _ s, encSB_fields op f3 rs1 rs2 imm13⟩,
    ⟨_, exec_drives _ s, encU_fields op rd imm20⟩,
    ⟨_, exec_drives _ s, encUJ_fields op rd imm21⟩⟩

/-- Settles O17: the elements by `seq_getElem?`, and the two inverse laws. -/
theorem sequenceAndBitVectorCarryTheSameBits : Obligations.SequenceAndBitVectorCarryTheSameBits :=
  ⟨fun _ v => ⟨seq_length v, ofSeqAs_seq v, fun _ => seq_getElem? v⟩, seq_ofSeq,
    fun w => ⟨seq_getElem? w (by decide), seq_getElem? w (by decide)⟩⟩

/-- Settles O48: `assemble` gives the descriptors' words in order, or fails with the request that fails. -/
theorem assembledProgramIsTheImageOfItsWords : Obligations.AssembledProgramIsTheImageOfItsWords := by
  refine fun order base rs => ⟨fun ds h => ?_, fun ⟨r, hr, h⟩ => ?_⟩
  · rw [assembleImage, assemble_eq_ok h]
    rfl
  · rw [assembleImage, assemble_eq_error ⟨r, hr, resolve_eq_error h⟩]
    rfl

end Sys2Proof.Machine

/-! PROOF. The statements of the state chapter (10_state.md): the descriptor the ports present (R26 to R28), what a
step drives for it (R29, R30), which input bits its outputs depend on (R28, R118), and the width check of an untyped
descriptor (R24, R142). -/

namespace Sys2Proof

/-! ## Decoding the ports -/

/-- A format's code on the `fmt` port presents that format's descriptor. -/
theorem decode_of_fmt_eq_code {p : Ports} {f : Fmt} (h : p.fmt = f.code) : decode p = .ok (p.desc f) := by
  simp [decode, (Fmt.ofCode_eq_some _ _).mpr h]

/-- A reserved code on the `fmt` port presents none. -/
theorem decode_of_fmt_reserved {p : Ports} (h : p.fmt = 6 ∨ p.fmt = 7) :
    decode p = .error (.reservedFmt p.fmt) := by
  simp [decode, (Fmt.ofCode_eq_none _).mpr h]

/-- Reading the ports of a descriptor under its own format gives it back. -/
@[simp] theorem desc_encodePorts (i : Instr) : (encodePorts i).desc i.fmt = i := by
  cases i <;> simp [encodePorts, Instr.fmt, Ports.desc, BitVec.extractLsb, BitVec.extractLsb'_setWidth_of_le]

@[simp] theorem decode_encodePorts (i : Instr) : decode (encodePorts i) = .ok i := by
  rw [decode_of_fmt_eq_code (encodePorts_fmt i), desc_encodePorts]

/-! ## Untyped descriptors -/

theorem RawInstr.fieldOk_eq_false_iff (r : RawInstr) (f : Field) :
    r.fieldOk f = false ↔ (r.get f).length ≠ (r.fmt.width f).getD 0 := by
  simp [fieldOk]

/-- The width check names a field when some field has a wrong width, and the field it names is such a field. -/
theorem RawInstr.exists_badField {r : RawInstr} (h : ∃ f, r.fieldOk f = false) :
    ∃ f, r.badField = some f ∧ r.fieldOk f = false := by
  obtain ⟨f, hf⟩ := h
  have hmem : f ∈ Field.all := by cases f <;> decide
  have hsome : r.badField.isSome := List.find?_isSome.mpr ⟨f, hmem, by simp [hf]⟩
  obtain ⟨g, hg⟩ := Option.isSome_iff_exists.mp hsome
  exact ⟨g, hg, by simpa using List.find?_some hg⟩

theorem decodeRaw_of_badField {r : RawInstr} {f : Field} (h : r.badField = some f) :
    decodeRaw r = .error (.fieldWidth f) := by
  simp [decodeRaw, h]

/-- The untyped form of a descriptor passes the width check (R25). -/
theorem badField_raw (i : Instr) : i.raw.badField = none := by
  have hwf : Laws.FieldWidths.Statement i := by
    cases i with
    | encR => exact Laws.FieldWidths.encR ..
    | encI => exact Laws.FieldWidths.encI ..
    | encS => exact Laws.FieldWidths.encS ..
    | encSB => exact Laws.FieldWidths.encSB ..
    | encU => exact Laws.FieldWidths.encU ..
    | encUJ => exact Laws.FieldWidths.encUJ ..
  simpa [Laws.FieldWidths.Statement, Instr.wellFormed, RawInstr.wellFormed] using hwf

/-- The untyped form of a descriptor reads as the descriptor: each field's sequence gives the field (`ofSeqAs_seq`). -/
theorem decodeRaw_raw (i : Instr) : decodeRaw i.raw = .ok i := by
  simp only [decodeRaw, badField_raw]
  cases i <;> simp [Instr.raw]

end Sys2Proof

namespace Sys2Proof.Machine

/-! ## What a step answers -/

theorem step_of_decode_ok {s : State} {i : Instr} (h : decode s.inp = .ok i) : step s = exec i s := by
  simp [step, h]

/-- A step on a presented descriptor keeps the inputs and makes the outputs carry the descriptor's word. -/
theorem step_eq_carries {s : State} {i : Instr} (h : decode s.inp = .ok i) :
    step s = .next ⟨s.inp, carries (encode i)⟩ := by
  rw [step_of_decode_ok h, exec_drives, drive_eq_carries]

/-- The only next state a step can answer is the one whose outputs carry the presented descriptor's word. -/
theorem step_eq_next_iff {s t : State} :
    step s = .next t ↔ ∃ i, decode s.inp = .ok i ∧ t = ⟨s.inp, carries (encode i)⟩ := by
  constructor
  · intro h
    obtain ⟨f, -, hd, rfl⟩ := step_next h
    exact ⟨_, hd, drive_eq_carries ..⟩
  · rintro ⟨i, hd, rfl⟩
    exact step_eq_carries hd

/-- An outputs record carries one word only, since the word is one of its fields. -/
theorem carries_inj {v w : Word} : carries v = carries w ↔ v = w :=
  ⟨congrArg Outputs.word, congrArg carries⟩

/-! ## Where each bit of the word comes from (R57 to R62, R111 to R116)

The slices that `encR_fields` to `encUJ_fields` read back give each bit of the word: the field slots are such slices,
and a bit table is a few runs of consecutive bits. -/

/-- A field slot of a format's word, read as a slice, has the bits of the field's port. -/
theorem encode_desc_fieldSlots (p : Ports) (f : Fmt) :
    ∀ e ∈ fieldSlots f, ∀ j,
      ((encode (p.desc f)).extractLsb' e.2.2 (e.2.1 + 1 - e.2.2)).getLsbD j = portBit p e.1 j := by
  cases f <;>
    simp [fieldSlots, Ports.desc, encode, portBit, encR_fields, encI_fields, encS_fields, encSB_fields, encU_fields,
      encUJ_fields, -BitVec.getLsbD_extractLsb']

/-- The bit table of a format as runs of consecutive bits: lowest immediate bit, lowest word bit, length. -/
def immRuns : Fmt → List (Nat × Nat × Nat)
  | .r  => []
  | .i  => [(0, 20, 12)]
  | .s  => [(0, 7, 5), (5, 25, 7)]
  | .sb => [(1, 8, 4), (5, 25, 6), (11, 7, 1), (12, 31, 1)]
  | .u  => [(0, 12, 20)]
  | .uj => [(1, 21, 10), (11, 20, 1), (12, 12, 8), (20, 31, 1)]

/-- Every pair of a bit table lies in one of the format's runs. -/
theorem exists_immRun_of_mem_immSlots (f : Fmt) :
    ∀ e ∈ immSlots f, ∃ r ∈ immRuns f, ∃ j < r.2.2, e = (r.1 + j, r.2.1 + j) := by
  cases f <;> decide

/-- A run of a format's word, read as a slice, is the slice of the `imm` port. -/
theorem encode_desc_immRuns (p : Ports) (f : Fmt) :
    ∀ r ∈ immRuns f, (encode (p.desc f)).extractLsb' r.2.1 r.2.2 = p.imm.extractLsb' r.1 r.2.2 := by
  cases f <;>
    simp [immRuns, Ports.desc, encode, encI_fields, encS_fields, encSB_fields, encU_fields, encUJ_fields,
      BitVec.extractLsb, BitVec.extractLsb'_extractLsb'_of_le]

/-- Each pair of a format's bit table joins an immediate bit to the word bit that it feeds. -/
theorem encode_desc_immSlots (p : Ports) (f : Fmt) :
    ∀ e ∈ immSlots f, (encode (p.desc f)).getLsbD e.2 = p.imm.getLsbD e.1 := by
  intro e he
  obtain ⟨r, hr, j, hj, rfl⟩ := exists_immRun_of_mem_immSlots f e he
  simpa [hj] using congrArg (·.getLsbD j) (encode_desc_immRuns p f r hr)

/-- Every bit of a format's word has a source in the tables. -/
theorem sourceOf_isSome (f : Fmt) : ∀ k < 32, (sourceOf f k).isSome := by
  cases f <;> decide

/-- The source that the tables name for a word bit is the port bit that the word has there. -/
theorem getLsbD_encode_desc_of_sourceOf {p : Ports} {f : Fmt} {k : Nat} {src : Field × Nat}
    (h : sourceOf f k = some src) : (encode (p.desc f)).getLsbD k = portBit p src.1 src.2 := by
  unfold sourceOf at h
  split at h
  next e he =>
    obtain rfl : e.2 = k := by simpa using List.find?_some he
    obtain rfl : (Field.imm, e.1) = src := by simpa using h
    exact encode_desc_immSlots p f e (List.mem_of_find?_eq_some he)
  next =>
    obtain ⟨e, he, rfl⟩ := Option.map_eq_some_iff.mp h
    obtain ⟨hlo, hhi⟩ : e.2.2 ≤ k ∧ k ≤ e.2.1 := by simpa using List.find?_some he
    have hlt : k - e.2.2 < e.2.1 + 1 - e.2.2 := by omega
    simpa [hlt, Nat.add_sub_cancel' hlo] using
      encode_desc_fieldSlots p f e (List.mem_of_find?_eq_some he) (k - e.2.2)

/-- Two port values give the same word under a format exactly when they agree on the sources of its 32 bits. -/
theorem encode_desc_eq_iff {p q : Ports} {f : Fmt} :
    encode (p.desc f) = encode (q.desc f)
      ↔ ∀ k < 32, ∀ src ∈ sourceOf f k, portBit p src.1 src.2 = portBit q src.1 src.2 := by
  constructor
  · intro h k _ src hsrc
    rw [← getLsbD_encode_desc_of_sourceOf hsrc, ← getLsbD_encode_desc_of_sourceOf hsrc, h]
  · intro h
    refine BitVec.eq_of_getLsbD_eq fun k hk => ?_
    obtain ⟨src, hsrc⟩ := Option.isSome_iff_exists.mp (sourceOf_isSome f k hk)
    rw [getLsbD_encode_desc_of_sourceOf hsrc, getLsbD_encode_desc_of_sourceOf hsrc, h k hk src hsrc]

/-! ## The statements -/

/-- Settles O19: the `fmt` port selects the descriptor's own format, and each field reads back from its port. -/
theorem decodeOfEncodedPortsIsTheInstruction : Obligations.DecodeOfEncodedPortsIsTheInstruction :=
  decode_encodePorts

/-- Settles O30: a step keeps the inputs, so a second step drives the same outputs. -/
theorem stepSettlesAndIsIdempotent : Obligations.StepSettlesAndIsIdempotent := by
  intro s t h
  obtain ⟨i, hd, rfl⟩ := step_eq_next_iff.mp h
  exact ⟨⟨i, hd, rfl⟩, rfl, step_eq_carries hd⟩

/-- Settles O24: the descriptor is the one the selected format reads from the ports. -/
theorem validFmtDrivesWordAndBytes : Obligations.ValidFmtDrivesWordAndBytes := by
  intro s hs
  rcases decode_cases s.inp with ⟨f, hf, hd⟩ | ⟨hres, -⟩
  · exact ⟨s.inp.desc f, hd, by rw [hf, validOf_code], step_eq_carries hd⟩
  · exact absurd hres ((presentable_iff _).mp hs)

/-- Settles O27: equal outputs are equal words, and a word is compared bit by bit through its sources. -/
theorem outputsDependOnExactlyTheUsedBits : Obligations.OutputsDependOnExactlyTheUsedBits := by
  intro f p q o o' hp hq
  refine ⟨_, _, step_eq_carries (decode_of_fmt_eq_code hp), step_eq_carries (decode_of_fmt_eq_code hq), ?_⟩
  simp [carries_inj, encode_desc_eq_iff, agreeOnUsed, hp, hq]

/-- Settles O31: the one next state a step can answer has the outputs that a settled state has. -/
theorem settledExactlyWhenStepLeavesIt : Obligations.SettledExactlyWhenStepLeavesIt := by
  rintro ⟨p, o⟩
  simp [step_eq_next_iff, State.settled]

/-- Settles O44: the width check names a field of wrong width, and accepts the untyped form of every descriptor. -/
theorem wrongWidthFieldIsRefusedByName : Obligations.WrongWidthFieldIsRefusedByName := by
  constructor
  · intro r s h
    simp only [← RawInstr.fieldOk_eq_false_iff] at h ⊢
    obtain ⟨f, hbad, hf⟩ := RawInstr.exists_badField h
    exact ⟨f, hf, by simp [submitRaw, decodeRaw_of_badField hbad]⟩
  · intro i s
    simpa [submitRaw, decodeRaw_raw] using step_eq_carries (s := s.present (encodePorts i)) (decode_encodePorts i)

/-- Settles O18: each code is its format's, and the UJ format reads the whole `imm` port. -/
theorem fmtCodeSelectsTheDescriptor : Obligations.FmtCodeSelectsTheDescriptor := by
  intro op rd f3 rs1 rs2 f7 imm
  have huj : imm.extractLsb 20 0 = imm := by simp [BitVec.extractLsb]
  exact ⟨decode_of_fmt_eq_code (f := .r) rfl, decode_of_fmt_eq_code (f := .i) rfl,
    decode_of_fmt_eq_code (f := .s) rfl, decode_of_fmt_eq_code (f := .sb) rfl,
    decode_of_fmt_eq_code (f := .u) rfl, (decode_of_fmt_eq_code (f := .uj) rfl).trans (by rw [Ports.desc, huj]),
    decode_of_fmt_reserved (.inl rfl), decode_of_fmt_reserved (.inr rfl)⟩

/-- Settles O23: `step` has no other branch for a presented descriptor. -/
theorem stepRunsTheDecodedInstruction : Obligations.StepRunsTheDecodedInstruction :=
  fun _ _ => step_of_decode_ok

/-- Settles O25: `decode` rejects both codes, and `validOf` is false at each. -/
theorem reservedFmtIsRefused : Obligations.ReservedFmtIsRefused := by
  intro s h
  refine ⟨?_, by simp [step, decode_of_fmt_reserved h]⟩
  rcases h with h | h <;> simp [validOf, h]

/-- Settles O29: a step reads the input ports only, and every output is driven anew. -/
theorem equalInputsGiveEqualOutputs : Obligations.EqualInputsGiveEqualOutputs := by
  intro p o o'
  rcases decode_cases p with ⟨f, -, hd⟩ | ⟨-, hd⟩
  · rw [step_eq_carries hd, step_eq_carries hd]
  · simp [step, hd]

end Sys2Proof.Machine

/-! PROOF. The statements of the memory chapter (20_memory.md): the block keeps nothing between uses (R48), and the
downstream writer's image (R41, R45, R49). -/

namespace Sys2Proof.Machine

/-! ## One use of the block -/

/-- What the caller reads from a use does not depend on what stood on the ports before it (R48). -/
theorem use_out_eq (p : Ports) (s s' : State) : (use p s).2 = (use p s').2 := by
  rcases decode_cases p with ⟨f, -, hd⟩ | ⟨-, hd⟩
  · have hstep (t : State) : step (t.present p) = .next ⟨p, carries (encode (p.desc f))⟩ := step_eq_carries hd
    simp [use, hstep]
  · have hstep (t : State) : step (t.present p) = .refused (.reservedFmt p.fmt) := by simp [step, hd]
    simp [use, hstep]

theorem uses_eq_map (ps : List Ports) (s s' : State) : uses ps s = ps.map fun p => (use p s').2 := by
  induction ps generalizing s with
  | nil => rfl
  | cons p ps ih => rw [uses, ih, use_out_eq p s s', List.map_cons]

/-! ## The image as one byte stream -/

theorem Image.writeBytes_append (m : Image) (a : Nat) (bs cs : List Byte) :
    m.writeBytes a (bs ++ cs) = (m.writeBytes a bs).writeBytes (a + bs.length) cs := by
  induction bs generalizing m a with
  | nil => rfl
  | cons b bs ih => simp [writeBytes, ih, Nat.add_assoc, Nat.add_comm 1]

/-- Words with consecutive numbers lie one behind the other: placing them places their stream at once. -/
theorem placeAll_numberFrom (order : ImageByteOrder) (base n : Nat) (ws : List Word) (m : Image) :
    placeAll order base m (numberFrom n ws) = m.writeBytes (wordAddr base n) (streamOf order ws) := by
  induction ws generalizing m n with
  | nil => rfl
  | cons w ws ih =>
    calc placeAll order base m (numberFrom n (w :: ws))
      _ = placeAll order base (placeWord order base m (n, w)) (numberFrom (n + 1) ws) := rfl
      _ = (m.writeBytes (wordAddr base n) (imageBytes order w)).writeBytes (wordAddr base (n + 1))
            (streamOf order ws) := ih ..
      _ = m.writeBytes (wordAddr base n) (imageBytes order w ++ streamOf order ws) := by
        rw [Image.writeBytes_append, imageBytes_length]
        rfl

theorem imageOf_eq_writeBytes (order : ImageByteOrder) (base : Nat) (ws : List Word) :
    imageOf order base ws = Image.writeBytes [] base (streamOf order ws) :=
  placeAll_numberFrom order base 0 ws []

@[simp] theorem streamOf_length (order : ImageByteOrder) (ws : List Word) :
    (streamOf order ws).length = 4 * ws.length := by
  simp [streamOf, List.length_flatMap, Nat.mul_comm]

/-- Byte `4n + k` of the stream is byte `k` of word `n`. -/
theorem streamOf_getElem? (order : ImageByteOrder) {ws : List Word} {n k : Nat} {w : Word} (hw : ws[n]? = some w)
    (hk : k < 4) : (streamOf order ws)[4 * n + k]? = (imageBytes order w)[k]? := by
  induction ws generalizing n with
  | nil => simp at hw
  | cons v ws ih =>
    have hcons : streamOf order (v :: ws) = imageBytes order v ++ streamOf order ws := rfl
    cases n with
    | zero =>
      obtain rfl : v = w := by simpa using hw
      rw [hcons, List.getElem?_append_left (by simp; omega), Nat.mul_zero, Nat.zero_add]
    | succ n =>
      have hsub : 4 * (n + 1) + k - (imageBytes order v).length = 4 * n + k := by simp; omega
      rw [hcons, List.getElem?_append_right (by simp; omega), hsub, ih (by simpa using hw)]

theorem imageBytes_lsbFirst_getElem? (w : Word) {k : Nat} (hk : k < 4) :
    (imageBytes .lsbFirst w)[k]? = some (w.extractLsb' (8 * k) 8) := by
  interval_cases k <;> rfl

theorem imageBytes_msbFirst_getElem? (w : Word) {k : Nat} (hk : k < 4) :
    (imageBytes .msbFirst w)[k]? = some (w.extractLsb' (24 - 8 * k) 8) := by
  interval_cases k <;> rfl

theorem read_imageOf (order : ImageByteOrder) (base : Nat) (ws : List Word) (a : Nat) :
    (imageOf order base ws).read a
      = if base ≤ a ∧ a < base + 4 * ws.length then (streamOf order ws)[a - base]? else none := by
  rw [imageOf_eq_writeBytes, Image.read_writeBytes _ _ Image.wf_nil, streamOf_length]
  rfl

/-- A word of the program reads back, byte by byte, at its place in the image (R41). -/
theorem read_imageOf_word (order : ImageByteOrder) (base : Nat) {ws : List Word} {n k : Nat} {w : Word}
    (hw : ws[n]? = some w) (hk : k < 4) :
    (imageOf order base ws).read (base + 4 * n + k) = (imageBytes order w)[k]? := by
  have hn : n < ws.length := (List.getElem?_eq_some_iff.mp hw).1
  have hoff : base + 4 * n + k - base = 4 * n + k := by omega
  rw [read_imageOf, if_pos (by omega), hoff, streamOf_getElem? order hw hk]

/-! ## The image as a list -/

/-- A byte placed above every listed address goes to the end of the list. -/
theorem Image.write_of_lt {m : Image} {a : Nat} (hm : ∀ e ∈ m, e.1 < a) (b : Byte) : m.write a b = m ++ [(a, b)] := by
  induction m with
  | nil => rfl
  | cons e m ih =>
    obtain ⟨he, hm⟩ := List.forall_mem_cons.mp hm
    rw [write, if_neg (by omega), if_neg (by omega), ih hm, List.cons_append]

/-- Bytes placed one after another above every listed address are listed there in their order. -/
theorem Image.writeBytes_of_lt {m : Image} {a : Nat} (hm : ∀ e ∈ m, e.1 < a) (bs : List Byte) :
    m.writeBytes a bs = m ++ (bs.zipIdx a).map Prod.swap := by
  induction bs generalizing m a with
  | nil => simp [writeBytes]
  | cons b bs ih =>
    have hm' : ∀ e ∈ m ++ [(a, b)], e.1 < a + 1 := by
      intro e he
      rcases List.mem_append.mp he with he | he
      · exact Nat.lt_succ_of_lt (hm e he)
      · simp [List.mem_singleton.mp he]
    simp [writeBytes, write_of_lt hm, ih hm']

/-! ## Placing words in any order -/

theorem wf_placeWord (order : ImageByteOrder) (base : Nat) {m : Image} (hm : m.wf) (p : Nat × Word) :
    (placeWord order base m p).wf :=
  Image.wf_writeBytes _ m hm _

theorem read_placeWord (order : ImageByteOrder) (base : Nat) {m : Image} (hm : m.wf) (p : Nat × Word) (a : Nat) :
    (placeWord order base m p).read a
      = if wordAddr base p.1 ≤ a ∧ a < wordAddr base p.1 + 4 then (imageBytes order p.2)[a - wordAddr base p.1]?
        else m.read a := by
  rw [placeWord, Image.read_writeBytes _ m hm, imageBytes_length]

/-- Words with different numbers have no address in common, so either can be placed first. -/
theorem placeWord_comm (order : ImageByteOrder) (base : Nat) {m : Image} (hm : m.wf) {p q : Nat × Word}
    (hpq : p.1 ≠ q.1) :
    placeWord order base (placeWord order base m p) q = placeWord order base (placeWord order base m q) p := by
  have hp := wf_placeWord order base hm p
  have hq := wf_placeWord order base hm q
  refine Image.ext_read (wf_placeWord order base hp q) (wf_placeWord order base hq p) fun a => ?_
  rw [read_placeWord order base hp, read_placeWord order base hm, read_placeWord order base hq,
    read_placeWord order base hm]
  have hdisjoint : ¬ ((wordAddr base p.1 ≤ a ∧ a < wordAddr base p.1 + 4)
      ∧ (wordAddr base q.1 ≤ a ∧ a < wordAddr base q.1 + 4)) := by
    simp only [wordAddr]
    omega
  by_cases hap : wordAddr base p.1 ≤ a ∧ a < wordAddr base p.1 + 4
  · have haq := fun h => hdisjoint ⟨hap, h⟩
    rw [if_neg haq, if_pos hap, if_pos hap]
  · rw [if_neg hap, if_neg hap]

/-- By induction on the permutation, for every image: a swap of two neighbours is `placeWord_comm`. -/
theorem placeAll_perm (order : ImageByteOrder) (base : Nat) {ps qs : List (Nat × Word)} (h : ps.Perm qs)
    (hnd : (ps.map Prod.fst).Nodup) {m : Image} (hm : m.wf) :
    placeAll order base m ps = placeAll order base m qs := by
  induction h generalizing m with
  | nil => rfl
  | cons p _ ih => exact ih (List.nodup_cons.mp hnd).2 (wf_placeWord order base hm p)
  | swap p q ps =>
    have hqp : q.1 ≠ p.1 := fun heq => by simp [heq] at hnd
    exact congrArg (placeAll order base · ps) (placeWord_comm order base hm hqp)
  | trans h₁ _ ih₁ ih₂ => exact (ih₁ hnd hm).trans (ih₂ ((h₁.map _).nodup_iff.mp hnd) hm)

/-! ## The statements -/

/-- Settles O33: the results are the map of one use's result over the inputs, and a map keeps permutations. -/
theorem usesAreIndependentOfEachOther : Obligations.UsesAreIndependentOfEachOther := by
  refine ⟨uses_eq_map, fun ps qs s s' h => ?_⟩
  rw [uses_eq_map ps s s', uses_eq_map qs s' s']
  exact h.map _

/-- Settles O45: inside the image by `read_imageOf_word`, outside by the bounds in `read_imageOf`. -/
theorem imageHoldsEachWordAtItsPlace : Obligations.ImageHoldsEachWordAtItsPlace := by
  refine fun base ws => ⟨fun n k w hw hk => ?_, fun order a ha => ?_⟩
  · rw [read_imageOf_word _ base hw hk, read_imageOf_word _ base hw hk]
    exact ⟨imageBytes_lsbFirst_getElem? w hk, imageBytes_msbFirst_getElem? w hk⟩
  · rw [read_imageOf, if_neg (by omega)]

/-- Settles O46: the stream written into the empty image is listed in order, four bytes a word. -/
theorem imageIsTheByteStreamFromTheBase : Obligations.ImageIsTheByteStreamFromTheBase := by
  intro order base ws
  have hlist : imageOf order base ws = ((streamOf order ws).zipIdx base).map Prod.swap := by
    rw [imageOf_eq_writeBytes, Image.writeBytes_of_lt (by simp), List.nil_append]
  exact ⟨hlist, by simp [hlist]⟩

/-- Settles O47: words with different numbers commute (`placeWord_comm`). -/
theorem wordsPlacedInAnyOrderGiveTheSameImage : Obligations.WordsPlacedInAnyOrderGiveTheSameImage :=
  fun order base _ _ _ hm hnd h => placeAll_perm order base h hnd hm

end Sys2Proof.Machine

/-! PROOF. The statements of the encoding chapter (30_encoding.md): words and descriptors (R64, R66, R99, R121), the
reassembled immediates (R65), the odd offset (R119), the word as a bit sequence (R56), and the table words (R67,
R71). -/

namespace Sys2Proof

/-! ## The decoder's slices, by lowest bit and width

The library's lemmas about concatenation, and the `encR_fields` to `encUJ_fields`, speak of slices in this form. -/

theorem fieldOpcode_eq (w : Word) : fieldOpcode w = w.extractLsb' 0 7 := rfl
theorem fieldRd_eq (w : Word) : fieldRd w = w.extractLsb' 7 5 := rfl
theorem fieldFunct3_eq (w : Word) : fieldFunct3 w = w.extractLsb' 12 3 := rfl
theorem fieldRs1_eq (w : Word) : fieldRs1 w = w.extractLsb' 15 5 := rfl
theorem fieldRs2_eq (w : Word) : fieldRs2 w = w.extractLsb' 20 5 := rfl
theorem fieldFunct7_eq (w : Word) : fieldFunct7 w = w.extractLsb' 25 7 := rfl
theorem immI_eq (w : Word) : immI w = w.extractLsb' 20 12 := rfl
theorem immS_eq (w : Word) : immS w = w.extractLsb' 25 7 ++ w.extractLsb' 7 5 := rfl
theorem immSB_eq (w : Word) :
    immSB w = w.extractLsb' 31 1 ++ w.extractLsb' 7 1 ++ w.extractLsb' 25 6 ++ w.extractLsb' 8 4 ++ 0#1 := rfl
theorem immU_eq (w : Word) : immU w = w.extractLsb' 12 20 := rfl
theorem immUJ_eq (w : Word) :
    immUJ w = w.extractLsb' 31 1 ++ w.extractLsb' 12 8 ++ w.extractLsb' 20 1 ++ w.extractLsb' 21 10 ++ 0#1 := rfl

@[simp] theorem decodeAs_fmt (f : Fmt) (w : Word) : (decodeAs f w).fmt = f := by
  cases f <;> rfl

end Sys2Proof

namespace Sys2Proof.Machine

open BitVec (extractLsb'_append_eq_of_le extractLsb'_append_eq_of_add_le extractLsb'_append_extractLsb'_eq_extractLsb')

/-! ## The splitter's slices, by lowest bit and width -/

theorem splitI_eq (imm : BitVec 12) : splitI imm = imm := BitVec.extractLsb'_eq_self
theorem splitS_eq (imm : BitVec 12) : splitS imm = (imm.extractLsb' 5 7, imm.extractLsb' 0 5) := rfl
theorem splitSB_eq (imm : BitVec 13) :
    splitSB imm
      = (imm.extractLsb' 12 1 ++ imm.extractLsb' 5 6, imm.extractLsb' 1 4 ++ imm.extractLsb' 11 1) := rfl
theorem splitU_eq (imm : BitVec 20) : splitU imm = imm := BitVec.extractLsb'_eq_self
theorem splitUJ_eq (imm : BitVec 21) :
    splitUJ imm
      = imm.extractLsb' 20 1 ++ imm.extractLsb' 1 10 ++ imm.extractLsb' 11 1 ++ imm.extractLsb' 12 8 := rfl

/-! ## Splitting a reassembled immediate gives the word's bits back

Each part of the split is a slice of one piece of the reassembly, or two pieces that lie side by side in the word.
`Nat.reduceAdd` is kept out as above (`encR_fields`). -/

theorem splitS_immS (w : Word) : splitS (immS w) = (w.extractLsb' 25 7, w.extractLsb' 7 5) := by
  simp [splitS_eq, immS_eq, extractLsb'_append_eq_of_le, extractLsb'_append_eq_of_add_le, -Nat.reduceAdd]

theorem splitSB_immSB (w : Word) : splitSB (immSB w) = (w.extractLsb' 25 7, w.extractLsb' 7 5) := by
  simp (disch := omega) [splitSB_eq, immSB_eq, extractLsb'_append_eq_of_le, extractLsb'_append_eq_of_add_le,
    extractLsb'_append_extractLsb'_eq_extractLsb', -Nat.reduceAdd]

theorem splitUJ_immUJ (w : Word) : splitUJ (immUJ w) = w.extractLsb' 12 20 := by
  simp (disch := omega) [splitUJ_eq, immUJ_eq, extractLsb'_append_eq_of_le, extractLsb'_append_eq_of_add_le,
    extractLsb'_append_extractLsb'_eq_extractLsb', -Nat.reduceAdd]

/-! ## Reassembling a split immediate gives the immediate back, but for a dropped bit 0 (R121) -/

theorem immS_encS (op : BitVec 7) (f3 : BitVec 3) (rs1 rs2 : Reg) (imm : BitVec 12) :
    immS (encS op f3 rs1 rs2 imm) = imm := by
  simp only [immS_eq, encS_fields, extractLsb'_append_extractLsb'_eq_extractLsb']
  exact BitVec.extractLsb'_eq_self

theorem immSB_encSB (op : BitVec 7) (f3 : BitVec 3) (rs1 rs2 : Reg) (imm : BitVec 13) :
    immSB (encSB op f3 rs1 rs2 imm) = imm.extractLsb' 1 12 ++ 0#1 := by
  simp only [immSB_eq, encSB_fields, extractLsb'_append_extractLsb'_eq_extractLsb']

theorem immUJ_encUJ (op : BitVec 7) (rd : Reg) (imm : BitVec 21) :
    immUJ (encUJ op rd imm) = imm.extractLsb' 1 20 ++ 0#1 := by
  simp only [immUJ_eq, encUJ_fields, extractLsb'_append_extractLsb'_eq_extractLsb']

/-- The mask of `evenOffset`, cut at bit 0 as the offset is, keeps the upper bits and clears the lowest. -/
theorem evenOffset_eq_append {n : Nat} (v : BitVec (n + 1)) : evenOffset v = v.extractLsb' 1 n ++ 0#1 := by
  have hmask : ~~~1#(n + 1) = BitVec.allOnes n ++ 0#1 := by
    have hone : 1#(n + 1) = 0#n ++ 1#1 := BitVec.eq_of_toNat_eq (by simp)
    rw [hone, BitVec.not_append]
    simp
  calc evenOffset v
    _ = (v.extractLsb' 1 n ++ v.extractLsb' 0 1) &&& (BitVec.allOnes n ++ 0#1) := by
      rw [evenOffset, hmask, BitVec.extractLsb'_append_extractLsb']
    _ = v.extractLsb' 1 n ++ 0#1 := by
      rw [BitVec.and_append, BitVec.and_allOnes, BitVec.and_zero]

/-! ## Words and descriptors -/

/-- The fields of a word under any format lie side by side and make up the whole word. -/
theorem encode_decodeAs (f : Fmt) (w : Word) : encode (decodeAs f w) = w := by
  cases f <;>
    simp (disch := omega) only [decodeAs, encode, encR, encI, encS, encSB, encU, encUJ, splitI_eq, splitU_eq,
      splitS_immS, splitSB_immSB, splitUJ_immUJ, immI_eq, immU_eq, fieldOpcode_eq, fieldRd_eq, fieldFunct3_eq,
      fieldRs1_eq, fieldRs2_eq, fieldFunct7_eq, extractLsb'_append_extractLsb'_eq_extractLsb',
      BitVec.extractLsb'_eq_self]

/-- Each field reads back from the word, and the immediate is reassembled up to a dropped bit 0. -/
theorem decodeAs_encode (i : Instr) : decodeAs i.fmt (encode i) = evened i := by
  cases i <;>
    simp [decodeAs, Instr.fmt, encode, evened, fieldOpcode_eq, fieldRd_eq, fieldFunct3_eq, fieldRs1_eq, fieldRs2_eq,
      fieldFunct7_eq, immI_eq, immU_eq, encR_fields, encI_fields, encS_fields, encSB_fields, encU_fields, encUJ_fields,
      immS_encS, immSB_encSB, immUJ_encUJ, evenOffset_eq_append]

theorem evened_decodeAs (f : Fmt) (w : Word) : evened (decodeAs f w) = decodeAs f w := by
  rw [← decodeAs_encode, decodeAs_fmt, encode_decodeAs]

theorem encode_evened (i : Instr) : encode (evened i) = encode i := by
  rw [← decodeAs_encode, encode_decodeAs]

@[simp] theorem evened_fmt (i : Instr) : (evened i).fmt = i.fmt := by
  cases i <;> rfl

theorem exec_evened (i : Instr) (s : State) : exec (evened i) s = exec i s := by
  rw [exec_drives, exec_drives, evened_fmt, encode_evened]

/-! ## Signed values and sign bits of the reassembled immediates (R65) -/

/-- An offset with an implicit zero bit 0 is twice a signed value of one bit less. -/
theorem toInt_append_zero_bounds {n : Nat} (v : BitVec (n + 1)) :
    -2 ^ (n + 1) ≤ (v ++ 0#1).toInt ∧ (v ++ 0#1).toInt ≤ 2 ^ (n + 1) - 2 ∧ (v ++ 0#1).toInt % 2 = 0 := by
  have hlo : -2 ^ n ≤ v.toInt := BitVec.le_toInt v
  have hhi : v.toInt ≤ 2 ^ n - 1 := BitVec.toInt_le
  rw [BitVec.toInt_append_zero]
  omega

/-- The highest piece of each reassembly begins at word bit 31. -/
theorem msb_imm (w : Word) :
    (immI w).msb = w.getLsbD 31 ∧ (immS w).msb = w.getLsbD 31 ∧ (immSB w).msb = w.getLsbD 31
      ∧ (immUJ w).msb = w.getLsbD 31 := by
  simp [immI_eq, immS_eq, immSB_eq, immUJ_eq, BitVec.msb_append, BitVec.msb_extractLsb', BitVec.getMsbD,
    -Nat.reduceAdd]

theorem toNat_immU32 (w : Word) : (immU32 w).toNat = (immU w).toNat * 4096 := by
  rw [immU32, BitVec.toNat_append]
  simp [Nat.shiftLeft_eq]

/-! ## The sequence of a slice -/

/-- A slice's sequence is a part of the whole sequence; what stands above the slice comes before it. -/
theorem seq_extractLsb' {n : Nat} (v : BitVec n) {start len : Nat} (h : start + len ≤ n) :
    seq (v.extractLsb' start len) = ((seq v).drop (n - (start + len))).take len := by
  refine List.ext_getElem (by simp; omega) fun i hi _ => ?_
  simp only [seq_length] at hi
  have hidx : n - (start + len - i) = n - (start + len) + i := by omega
  have hle : start + len - i ≤ n := by omega
  simp [seq_getElem, BitVec.getMsbD_extractLsb', hi, hle, hidx]

theorem seq_extractLsb'_one {n : Nat} (v : BitVec n) (k : Nat) : seq (v.extractLsb' k 1) = [v.getLsbD k] := by
  simp [seq, BitVec.getMsbD]

/-! ## Table words (log entry 5) -/

theorem tableBits_toNat (b : BitVec 35) : tableBits 35 b.toNat = b := by
  rw [tableBits, Nat.mod_eq_of_lt b.isLt, BitVec.ofNat_toNat, BitVec.setWidth_eq]

theorem portsOfTableBits_append (f : Fmt) (w : Word) :
    portsOfTableBits (f.code ++ w) = encodePorts (decodeAs f w) := by
  have hsel : (f.code ++ w).extractLsb 34 32 = f.code := BitVec.extractLsb'_append_eq_left
  have hword : (f.code ++ w).extractLsb 31 0 = w := BitVec.extractLsb'_append_eq_right
  rw [portsOfTableBits, hsel, hword, (Fmt.ofCode_eq_some _ f).mpr rfl]

theorem decodeTableWord_eq_some_iff {nbits w : Nat} {i : Instr} :
    decodeTableWord nbits w = some i ↔ decode (tablePorts nbits w) = .ok i := by
  rw [decodeTableWord]
  cases decode (tablePorts nbits w) <;> simp

/-! ## The statements -/

/-- Settles O20: the two round trips, `encode_decodeAs` and `decodeAs_encode`. -/
theorem wordsAndEvenDescriptorsCorrespond : Obligations.WordsAndEvenDescriptorsCorrespond :=
  ⟨fun f w => ⟨decodeAs_fmt f w, encode_decodeAs f w, evened_decodeAs f w⟩, decodeAs_encode⟩

/-- Settles O9: the even descriptor has the same meaning (`exec_evened`), and the offset reads back from the driven
word. -/
theorem oddOffsetLosesOnlyBitZero : Obligations.OddOffsetLosesOnlyBitZero := by
  constructor
  · intro op f3 rs1 rs2 imm s
    have heven : evened (.encSB op f3 rs1 rs2 imm) = .encSB op f3 rs1 rs2 (imm.extractLsb' 1 12 ++ 0#1) := by
      rw [evened, evenOffset_eq_append]
    exact ⟨_, exec_drives _ s, by rw [← heven, exec_evened, exec_drives], immSB_encSB op f3 rs1 rs2 imm⟩
  · intro op rd imm s
    have heven : evened (.encUJ op rd imm) = .encUJ op rd (imm.extractLsb' 1 20 ++ 0#1) := by
      rw [evened, evenOffset_eq_append]
    exact ⟨_, exec_drives _ s, by rw [← heven, exec_evened, exec_drives], immUJ_encUJ op rd imm⟩

/-- Settles O13: the I and S ranges are those of 12 bits; the SB and UJ immediates are 12 and 20 bits doubled. -/
theorem reassembledImmediatesSignedRanges : Obligations.ReassembledImmediatesSignedRanges := by
  intro w
  obtain ⟨hI, hS, hSB, hUJ⟩ := msb_imm w
  exact ⟨⟨BitVec.le_toInt _, BitVec.toInt_le⟩, ⟨BitVec.le_toInt _, BitVec.toInt_le⟩,
    toInt_append_zero_bounds _, toInt_append_zero_bounds _, hI, hS, hSB, hUJ, toNat_immU32 w⟩

/-- Settles O16: the sequence of a concatenation is cut into its parts' sequences (`seq_append`), and each part of an
immediate is a part of the immediate's sequence (`seq_extractLsb'`). -/
theorem wordSequenceIsTheFieldsInTableOrder : Obligations.WordSequenceIsTheFieldsInTableOrder := by
  intro op rd f3 rs1 rs2 f7 imm12 imm13 imm20 imm21
  have hS : ((seq imm12).drop 7).take 5 = (seq imm12).drop 7 := List.take_of_length_le (by simp)
  simp only [encode, encR, encI, encS, encSB, encU, encUJ, splitI_eq, splitS_eq, splitSB_eq, splitU_eq, splitUJ_eq,
    seq_append, seq_extractLsb'_one, -Nat.reduceAdd]
  simp [seq_extractLsb', hS]

/-- Settles O22: the select and the word are cut apart again, and a presented descriptor is what the step runs. -/
theorem tableWordsReachTheStep : Obligations.TableWordsReachTheStep := by
  constructor
  · intro f w
    rw [decodeTableWord_eq_some_iff, tablePorts, tableBits_toNat, portsOfTableBits_append, decode_encodePorts]
  · intro s nbits w i h
    have hd : decode (s.withFetchWord nbits w).inp = .ok i := decodeTableWord_eq_some_iff.mp h
    exact ⟨_, step_eq_carries hd, (step_of_decode_ok hd).symm.trans (step_eq_carries hd)⟩

/-- Settles O21: six fixed words, each evaluated by the decoder. -/
theorem writtenWordsDecodeAsTheirFields : Obligations.WrittenWordsDecodeAsTheirFields := by
  unfold Obligations.WrittenWordsDecodeAsTheirFields
  decide

end Sys2Proof.Machine

/-! PROOF. The statements of the register-encoder chapter (41_register_encoder.md): the integer form (R81, R83, R84),
the register names (R82), and the requests a caller resolves with it (R80, R163). -/

namespace Sys2Proof.Machine

/-! ## The integer form -/

theorem regenc_int (n : Int) : regenc (.int n) = regencInt n := rfl

/-- An integer yields a register exactly when it is the register's value. -/
theorem regencInt_eq_ok_iff {n : Int} {r : Reg} : regencInt n = .ok r ↔ (r.toNat : Int) = n := by
  have hr : r.toNat < 32 := r.isLt
  rcases regencInt_cases n with ⟨h0, h31, hok⟩ | ⟨hn, herr⟩
  · have hval : ((BitVec.ofInt 5 n).toNat : Int) = n := by
      rw [BitVec.toNat_ofInt]
      omega
    rw [hok, Except.ok.injEq, ← BitVec.toNat_inj]
    omega
  · simp only [herr, reduceCtorEq, false_iff]
    omega

theorem exists_regencInt_eq_ok {n : Int} (h0 : 0 ≤ n) (h31 : n ≤ 31) :
    ∃ r : Reg, regencInt n = .ok r ∧ (r.toNat : Int) = n := by
  rcases regencInt_cases n with ⟨-, -, hok⟩ | ⟨hn, -⟩
  · exact ⟨_, hok, regencInt_eq_ok_iff.mp hok⟩
  · omega

theorem exists_regencInt_natCast_eq_ok {n : Nat} (h : n ≤ 31) : ∃ r : Reg, regencInt n = .ok r ∧ r.toNat = n := by
  obtain ⟨r, hok, hval⟩ := exists_regencInt_eq_ok (n := n) (by omega) (by omega)
  exact ⟨r, hok, by omega⟩

theorem seq_reg (r : Reg) :
    seq r = [r.toNat.testBit 4, r.toNat.testBit 3, r.toNat.testBit 2, r.toNat.testBit 1, r.toNat.testBit 0] := rfl

/-! ## Register names -/

theorem regenc_str (t : String) : regenc (.str t) = regencChars t.toList := rfl

/-- The model's reading of a digit string is the library's. -/
theorem decimalValue_eq_ofDigitChars (ds : List Char) : decimalValue ds = Nat.ofDigitChars 10 ds 0 := rfl

/-- Leading zeros and the decimal digits of a number read as that number. -/
theorem decimalValue_zeros_toDigits (k n : Nat) :
    decimalValue (List.replicate k '0' ++ Nat.toDigits 10 n) = n := by
  rw [decimalValue_eq_ofDigitChars, Nat.ofDigitChars_append, Nat.ofDigitChars_replicate_zero, Nat.mul_zero,
    Nat.ofDigitChars_ten_toDigits]

theorem isDecimalDigit_of_mem_toDigits {n : Nat} {c : Char} (h : c ∈ Nat.toDigits 10 n) : isDecimalDigit c := by
  have hdigit : c.isDigit := Nat.isDigit_of_mem_toDigits (by decide) (by decide) h
  simpa [isDecimalDigit, Char.isDigit, Char.le_def] using hdigit

theorem all_isDecimalDigit_zeros_toDigits (k n : Nat) :
    (List.replicate k '0' ++ Nat.toDigits 10 n).all isDecimalDigit = true := by
  rw [List.all_append, Bool.and_eq_true, List.all_eq_true, List.all_eq_true]
  refine ⟨fun c hc => ?_, fun c hc => isDecimalDigit_of_mem_toDigits hc⟩
  rw [List.eq_of_mem_replicate hc]
  rfl

/-- A name that follows the grammar of D19 yields what its number yields. -/
theorem regencChars_of_digits {ds : List Char} (hne : ds ≠ []) (hdigits : ds.all isDecimalDigit = true) :
    regencChars ('x' :: ds) = regencInt (decimalValue ds) := by
  obtain ⟨d, ds, rfl⟩ := List.exists_cons_of_ne_nil hne
  exact if_pos hdigits

/-- A character list that does not follow the grammar of D19 fails. -/
theorem regencChars_of_malformed {cs : List Char}
    (h : ¬ ∃ ds, cs = 'x' :: ds ∧ ds ≠ [] ∧ ds.all isDecimalDigit = true) :
    regencChars cs = .error .invalidRegister := by
  unfold regencChars
  split
  next d ds =>
    have hbad : ¬ (d :: ds).all isDecimalDigit = true := fun hall => h ⟨d :: ds, rfl, List.cons_ne_nil d ds, hall⟩
    exact if_neg hbad
  next => rfl

/-! ## The statements -/

/-- Settles O38: an integer yields a register exactly when it is its value, so each register has one integer. -/
theorem regencIntegerIsABijection : Obligations.RegencIntegerIsABijection :=
  ⟨fun _ hi => exists_regencInt_natCast_eq_ok hi,
    fun r => ⟨r.toNat, regencInt_eq_ok_iff.mpr rfl, fun _ hm => (regencInt_eq_ok_iff.mp hm).symm⟩⟩

/-- Settles O40: the name follows the grammar, and its digits read as the number. -/
theorem registerNamesReadAsDecimal : Obligations.RegisterNamesReadAsDecimal := by
  intro k n
  have hne : List.replicate k '0' ++ Nat.toDigits 10 n ≠ [] := by simp
  rw [regenc_str, String.toList_ofList, regencChars_of_digits hne (all_isDecimalDigit_zeros_toDigits k n),
    decimalValue_zeros_toDigits, regenc_int]

/-- Settles O41: every name the encoder's grammar accepts has the form that the hypothesis excludes. -/
theorem malformedRegisterNamesFail : Obligations.MalformedRegisterNamesFail := by
  intro t h
  rw [regenc_str]
  refine regencChars_of_malformed fun ⟨ds, ht, hne, hdigits⟩ => h ⟨ds, ht, hne, fun c hc => ?_⟩
  exact (isDecimalDigit_iff c).mp (List.all_eq_true.mp hdigits c hc)

/-- Settles O37: the two outcomes of the range check. -/
theorem regencIntegerSucceedsFrom0To31 : Obligations.RegencIntegerSucceedsFrom0To31 := by
  refine fun n => ⟨fun ⟨h0, h31⟩ => exists_regencInt_eq_ok h0 h31, fun hout => ?_⟩
  rcases regencInt_cases n with ⟨h0, h31, -⟩ | ⟨-, herr⟩
  · omega
  · exact herr

/-- Settles O39: the sequence of a register is the bits of its value, and the register's value is the index. -/
theorem regencOutputIsMostSignificantBitFirst : Obligations.RegencOutputIsMostSignificantBitFirst := by
  intro n hn
  obtain ⟨r, hok, rfl⟩ := exists_regencInt_natCast_eq_ok hn
  exact ⟨r, hok, rfl, seq_reg r⟩

/-- Settles O43: a request resolves by the results of its own identifiers, format by format. -/
theorem resolvedRequestHoldsTheEncodedRegisters : Obligations.ResolvedRequestHoldsTheEncodedRegisters := by
  intro op f3 f7 a b c x y z imm12 imm13 imm20 imm21 ha hb hc
  simp only [Request.resolve, ha, hb, hc]
  exact ⟨rfl, rfl, rfl, rfl, rfl, rfl⟩

end Sys2Proof.Machine

/-! PROOF. The statements of the format-encoder chapter (42_format_encoders.md): the word each encoder drives (R91 to
R97), what a word says of its descriptor and format (R99), and the parallel form of the mux (R98). -/

namespace Sys2Proof.Machine

open BitVec (extractLsb'_append_eq_of_le extractLsb'_append_eq_of_add_le)

/-! ## What an instruction drives -/

/-- Every meaning keeps the inputs and makes the outputs carry the descriptor's word. -/
theorem exec_eq_carries (i : Instr) (s : State) : exec i s = .next ⟨s.inp, carries (encode i)⟩ := by
  rw [exec_drives, drive_eq_carries]

/-- A descriptor whose word is known drives that word. -/
theorem exec_of_encode_eq {i : Instr} {w : Word} (h : encode i = w) (s : State) :
    exec i s = .next ⟨s.inp, carries w⟩ := by
  rw [exec_eq_carries, h]

/-! ## The layouts of R91 to R96

The R, S and UJ encoders are their layouts as written (by `rfl`). The I and U splits hand the whole immediate on, and
the SB split joins two parts of the immediate before they are placed. -/

theorem encode_encI (op : BitVec 7) (rd : Reg) (f3 : BitVec 3) (rs1 : Reg) (imm : BitVec 12) :
    encode (.encI op rd f3 rs1 imm) = imm ++ rs1 ++ f3 ++ rd ++ op := by
  rw [encode, encI, splitI_eq]

theorem encode_encU (op : BitVec 7) (rd : Reg) (imm : BitVec 20) :
    encode (.encU op rd imm) = imm ++ rd ++ op := by
  rw [encode, encU, splitU_eq]

/-- The library's associativity at the widths of the lower SB group, where its cast is the identity. -/
theorem append_lowSB (u : BitVec 20) (v : BitVec 4) (b : BitVec 1) : u ++ (v ++ b) = u ++ v ++ b :=
  (BitVec.append_assoc (x₁ := u) (x₂ := v) (x₃ := b)).symm

theorem encode_encSB (op : BitVec 7) (f3 : BitVec 3) (rs1 rs2 : Reg) (imm : BitVec 13) :
    encode (.encSB op f3 rs1 rs2 imm)
      = imm.extractLsb' 12 1 ++ imm.extractLsb' 5 6 ++ rs2 ++ rs1 ++ f3 ++ imm.extractLsb' 1 4
          ++ imm.extractLsb' 11 1 ++ op :=
  congrArg (· ++ op) (append_lowSB _ _ _)

/-- A descriptor that a word stands for has that word. -/
theorem encode_of_decodeAs_eq {f : Fmt} {w : Word} {i : Instr} (h : decodeAs f w = i) : encode i = w := by
  rw [← h, encode_decodeAs]

/-- The two parts of an S immediate touch their own group of word bits only (R93). The descriptor is read from the
word, where each field is a slice of zeros or of the given part. -/
theorem encode_encS_parts (lo : BitVec 5) (hi : BitVec 7) :
    encode (.encS 0 0 0 0 (0#7 ++ lo)) = 0#20 ++ lo ++ 0#7 ∧ encode (.encS 0 0 0 0 (hi ++ 0#5)) = hi ++ 0#25 := by
  constructor <;>
    exact encode_of_decodeAs_eq (f := .s) (by
      simp [decodeAs, fieldOpcode_eq, fieldFunct3_eq, fieldRs1_eq, fieldRs2_eq, immS_eq,
        extractLsb'_append_eq_of_le, extractLsb'_append_eq_of_add_le, -Nat.reduceAdd])

/-- The split UJ immediate stands whole at word bits 31:12. -/
theorem encUJ_extractLsb'_imm (op : BitVec 7) (rd : Reg) (imm : BitVec 21) :
    (encUJ op rd imm).extractLsb' 12 20 = splitUJ imm := by
  simp [encUJ, extractLsb'_append_eq_of_le, -Nat.reduceAdd]

/-! ## The parallel form of the mux (R98) -/

/-- A presented descriptor is read from the ports under the format whose code they hold. -/
theorem exists_fmt_of_decode_eq_ok {p : Ports} {i : Instr} (h : decode p = .ok i) :
    ∃ f : Fmt, p.fmt = f.code ∧ p.desc f = i := by
  rcases decode_cases p with ⟨f, hf, hd⟩ | ⟨-, hd⟩
  · exact ⟨f, hf, Except.ok.inj (hd.symm.trans h)⟩
  · simp [hd] at h

theorem muxWord_of_fmt_eq_code {p : Ports} {f : Fmt} (h : p.fmt = f.code) :
    muxWord p = some (encode (p.desc f)) := by
  rw [muxWord, h]
  cases f <;> rfl

theorem muxWord_of_fmt_reserved {p : Ports} (h : p.fmt = 6 ∨ p.fmt = 7) : muxWord p = none := by
  rcases h with h | h <;> rw [muxWord, h] <;> rfl

/-! ## The statements -/

/-- Settles O10: a word determines its descriptor up to the dropped bit (`decodeAs_encode`), and that bit is not in
the word (`encode_evened`). -/
theorem sameWordIffEqualUpToDroppedBit : Obligations.SameWordIffEqualUpToDroppedBit := by
  intro d e hfmt
  constructor
  · intro h
    rw [← decodeAs_encode, ← decodeAs_encode, hfmt, h]
  · intro h
    rw [← encode_evened, h, encode_evened]

/-- Settles O11: the descriptor is the one that the word stands for under the format. -/
theorem everyWordIsAWordOfEveryFormat : Obligations.EveryWordIsAWordOfEveryFormat :=
  fun w f => ⟨decodeAs f w, decodeAs_fmt f w, encode_decodeAs f w⟩

/-- Settles O15: the tables are complete (`sourceOf_isSome`), and the encoders follow them
(`getLsbD_encode_desc_of_sourceOf`). -/
theorem everyWordBitIsAWire : Obligations.EveryWordBitIsAWire := by
  intro p i h k hk
  obtain ⟨f, -, rfl⟩ := exists_fmt_of_decode_eq_ok h
  obtain ⟨src, hsrc⟩ := Option.isSome_iff_exists.mp (sourceOf_isSome f k hk)
  exact ⟨src, by rw [Ports.desc_fmt, hsrc], getLsbD_encode_desc_of_sourceOf hsrc⟩

/-- Settles O28: the mux and `decode` read the same format from the `fmt` port, and reject the same two codes. -/
theorem parallelMuxSelectsTheEncodedWord : Obligations.ParallelMuxSelectsTheEncodedWord := by
  refine fun p => ⟨fun i h => ?_, fun e h => ?_⟩
  · obtain ⟨f, hf, rfl⟩ := exists_fmt_of_decode_eq_ok h
    exact muxWord_of_fmt_eq_code hf
  · rcases decode_cases p with ⟨f, -, hd⟩ | ⟨hres, -⟩
    · simp [hd] at h
    · exact muxWord_of_fmt_reserved hres

/-- Settles O1: the R encoder is the layout; word bit 31 is read from the funct7 slice. -/
theorem encRDrivesItsWord : Obligations.EncRDrivesItsWord := by
  refine ⟨fun op rd f3 rs1 rs2 f7 s => ⟨exec_of_encode_eq rfl s, ?_⟩, fun s =>
    ⟨exec_of_encode_eq (by decide) s, exec_of_encode_eq (by decide) s, exec_of_encode_eq (by decide) s⟩⟩
  obtain ⟨-, -, -, -, -, hf7⟩ := encR_fields op rd f3 rs1 rs2 f7
  simpa [encode] using congrArg (·.getLsbD 6) hf7

/-- Settles O2: the layout is `encode_encI`; the corner cases are fixed words. -/
theorem encIDrivesItsWord : Obligations.EncIDrivesItsWord :=
  ⟨fun op rd f3 rs1 imm => exec_of_encode_eq (encode_encI op rd f3 rs1 imm), fun s =>
    ⟨exec_of_encode_eq (by decide) s, exec_of_encode_eq (by decide) s, exec_of_encode_eq (by decide) s,
      exec_of_encode_eq (by decide) s⟩⟩

/-- Settles O3: the S encoder is the layout; a part of the immediate touches its own bits (`encode_encS_parts`). -/
theorem encSDrivesItsWord : Obligations.EncSDrivesItsWord :=
  ⟨fun _ _ _ _ _ => exec_of_encode_eq rfl, encode_encS_parts, fun s =>
    ⟨exec_of_encode_eq (by decide) s, exec_of_encode_eq (by decide) s⟩⟩

/-- Settles O4: the layout is `encode_encSB`; 8 is 9 with bit 0 cleared (`encode_evened`), and the places of imm[11]
and imm[12] are slices of one bit. -/
theorem encSBDrivesItsWord : Obligations.EncSBDrivesItsWord := by
  refine ⟨fun op f3 rs1 rs2 imm => exec_of_encode_eq (encode_encSB op f3 rs1 rs2 imm),
    fun op f3 rs1 rs2 imm => ⟨(encode_evened (.encSB op f3 rs1 rs2 9)).symm, ?_⟩, fun s =>
    ⟨exec_of_encode_eq (by decide) s, exec_of_encode_eq (by decide) s, exec_of_encode_eq (by decide) s⟩⟩
  obtain ⟨-, -, -, -, -, -, h11, h12⟩ := encSB_fields op f3 rs1 rs2 imm
  exact ⟨by simpa [encode] using congrArg (·.getLsbD 0) h11, by simpa [encode] using congrArg (·.getLsbD 0) h12⟩

/-- Settles O5: the layout is `encode_encU`; the corner cases are fixed words. -/
theorem encUDrivesItsWord : Obligations.EncUDrivesItsWord :=
  ⟨fun op rd imm => exec_of_encode_eq (encode_encU op rd imm), fun s =>
    ⟨exec_of_encode_eq (by decide) s, exec_of_encode_eq (by decide) s, exec_of_encode_eq (by decide) s⟩⟩

/-- Settles O6: the UJ encoder is the layout; 8 is 9 with bit 0 cleared (`encode_evened`), the places of imm[11] and
imm[20] are slices of one bit, and the pattern of -4 is its split. -/
theorem encUJDrivesItsWord : Obligations.EncUJDrivesItsWord := by
  refine ⟨fun _ _ _ => exec_of_encode_eq rfl,
    fun op rd imm => ⟨(encode_evened (.encUJ op rd 9)).symm, ?_, ?_, encUJ_extractLsb'_imm op rd _⟩, fun s =>
    ⟨exec_of_encode_eq (by decide) s, exec_of_encode_eq (by decide) s, exec_of_encode_eq (by decide) s⟩⟩
  all_goals obtain ⟨-, -, -, h11, -, h20⟩ := encUJ_fields op rd imm
  · simpa [encode] using congrArg (·.getLsbD 0) h11
  · simpa [encode] using congrArg (·.getLsbD 0) h20

/-- Settles O7: a meaning has one outcome, so the next state is unique. -/
theorem everyDescriptorYieldsExactlyOneWord : Obligations.EveryDescriptorYieldsExactlyOneWord := by
  refine fun i s => ⟨encode i, exec_eq_carries i s, rfl, fun t h => ?_⟩
  exact Host.Outcome.next.inj (h.symm.trans (exec_eq_carries i s))

end Sys2Proof.Machine

/-! PROOF. The statements of the immediate-splitter chapter (43_immediate_splitter.md): the reassembly laws (R121), and
the bit tables with the immediate bits they place (R111 to R114, R116, R118). -/

namespace Sys2Proof.Machine

/-! ## Reassembly laws (R121) -/

theorem immI_encI (op : BitVec 7) (rd : Reg) (f3 : BitVec 3) (rs1 : Reg) (imm : BitVec 12) :
    immI (encI op rd f3 rs1 imm) = imm := by
  simp only [immI_eq, encI_fields]

theorem immU_encU (op : BitVec 7) (rd : Reg) (imm : BitVec 20) : immU (encU op rd imm) = imm := by
  simp only [immU_eq, encU_fields]

/-- Clearing bit 0 changes nothing exactly when that bit is 0: the vector is its upper bits and its bit 0. -/
theorem extractLsb'_append_zero_eq_self_iff {n : Nat} (v : BitVec (n + 1)) :
    v.extractLsb' 1 n ++ 0#1 = v ↔ v.getLsbD 0 = false := by
  constructor
  · intro h
    rw [← h]
    simp [BitVec.getElem_append]
  · intro h0
    have hlow : v.extractLsb' 0 1 = 0#1 := by
      refine BitVec.eq_of_getLsbD_eq fun k hk => ?_
      obtain rfl : k = 0 := by omega
      simpa using h0
    rw [← hlow, BitVec.extractLsb'_append_extractLsb']

/-! ## The immediate bits and the word bits of the bit tables -/

/-- The immediate bits of each bit table, in the table's order: all of them for I, S and U, all but bit 0 for SB and
UJ. -/
theorem immSlots_map_fst :
    (immSlots .r).map Prod.fst = [] ∧ (immSlots .i).map Prod.fst = List.range 12
      ∧ (immSlots .s).map Prod.fst = List.range 12 ∧ (immSlots .u).map Prod.fst = List.range 20
      ∧ (immSlots .sb).map Prod.fst = List.range' 1 12 ∧ (immSlots .uj).map Prod.fst = List.range' 1 20 := by
  decide

theorem immSlots_map_fst_nodup (f : Fmt) : ((immSlots f).map Prod.fst).Nodup := by
  cases f <;> simp [immSlots_map_fst, List.nodup_range, List.nodup_range']

/-- Two pairs of a bit table never share a word bit. -/
theorem immSlots_map_snd_nodup (f : Fmt) : ((immSlots f).map Prod.snd).Nodup := by
  cases f <;> decide

/-- The ports of a descriptor present it (`desc_encodePorts`), so its word follows the bit table from its `imm` port. -/
theorem encode_immSlots (i : Instr) {e : Nat × Nat} (he : e ∈ immSlots i.fmt) :
    (encode i).getLsbD e.2 = (encodePorts i).imm.getLsbD e.1 := by
  simpa using encode_desc_immSlots (encodePorts i) i.fmt e he

/-! ## The statements -/

/-- Settles O12: the five reassembly laws; an even offset is one that clearing bit 0 does not change. -/
theorem immediateRoundTrip : Obligations.ImmediateRoundTrip := by
  intro op rd f3 rs1 rs2
  refine ⟨immI_encI op rd f3 rs1, immS_encS op f3 rs1 rs2, immU_encU op rd, fun v => ?_, fun v => ?_⟩
  · rw [immSB_encSB]
    exact ⟨rfl, extractLsb'_append_zero_eq_self_iff v⟩
  · rw [immUJ_encUJ]
    exact ⟨rfl, extractLsb'_append_zero_eq_self_iff v⟩

/-- Settles O14: the immediate bits of a table are an interval (`immSlots_map_fst`), and the encoders follow the tables
(`encode_immSlots`). -/
theorem splitterFollowsItsBitTables : Obligations.SplitterFollowsItsBitTables := by
  refine ⟨fun f => ⟨immSlots_map_fst_nodup f, immSlots_map_snd_nodup f⟩, fun j => ?_,
    fun i _ he => encode_immSlots i he⟩
  obtain ⟨-, hi, hs, hu, hsb, huj⟩ := immSlots_map_fst
  simp only [hi, hs, hu, hsb, huj, List.mem_range, List.mem_range'_1, Nat.lt_one_add_iff, and_self]

end Sys2Proof.Machine

/-! PROOF. The statements of the byte-serializer chapter (44_byte_serializer.md): the byte layout (R131), the sequences
the serializer accepts (R132), and its inverse (R135). -/

namespace Sys2Proof.Machine

open BitVec (extractLsb'_append_eq_of_le extractLsb'_append_eq_of_add_le extractLsb'_append_extractLsb'_eq_extractLsb')

/-! ## The packer and its inverse -/

/-- The bytes by lowest bit and width. -/
theorem pack_eq (w : Word) :
    pack w = (w.extractLsb' 24 8, w.extractLsb' 16 8, w.extractLsb' 8 8, w.extractLsb' 0 8) := rfl

/-- The four bytes lie side by side in the word. -/
@[simp] theorem unpack_pack (w : Word) : unpack (pack w) = w := by
  simp only [unpack, pack_eq, extractLsb'_append_extractLsb'_eq_extractLsb', BitVec.extractLsb'_eq_self]

/-- Each slice of the concatenation is one of its four parts; `Nat.reduceAdd` is kept out as above (`encR_fields`). -/
@[simp] theorem pack_unpack (b : Byte × Byte × Byte × Byte) : pack (unpack b) = b := by
  simp [pack_eq, unpack, extractLsb'_append_eq_of_le, extractLsb'_append_eq_of_add_le, -Nat.reduceAdd]

/-! ## The packer on sequences -/

theorem seq_ofSeqAs {n : Nat} {l : List Bool} (h : l.length = n) : seq (ofSeqAs n l) = l := by
  subst h
  rw [ofSeqAs, BitVec.setWidth_eq, seq_ofSeq]

theorem seq_unpack (b : Byte × Byte × Byte × Byte) :
    seq (unpack b) = seq b.1 ++ seq b.2.1 ++ seq b.2.2.1 ++ seq b.2.2.2 := by
  simp only [unpack, seq_append]

/-! ## The statements -/

/-- Settles O34: byte `i` is the slice of eight bits from bit `24 - 8i` up (`imageBytes_msbFirst_getElem?`), and that
slice's sequence begins at `8i` (`seq_extractLsb'`). -/
theorem packedByteHoldsItsEightBits : Obligations.PackedByteHoldsItsEightBits := by
  refine fun w i hi => ⟨w.extractLsb' (24 - 8 * i) 8, imageBytes_msbFirst_getElem? w hi, fun b hb => ?_, ?_⟩
  · simp [hb]
  · have hstart : 32 - (24 - 8 * i + 8) = 8 * i := by omega
    rw [seq_extractLsb' w (by omega), hstart]

/-- Settles O35: the bytes' sequences make up that of the unpacked word (`seq_unpack`), which is the packed word. -/
theorem anySequenceOf32BitsPacks : Obligations.AnySequenceOf32BitsPacks := by
  refine fun l hl => ⟨_, _, _, _, rfl, (seq_unpack (pack (ofSeqAs 32 l))).symm.trans ?_⟩
  rw [unpack_pack, seq_ofSeqAs hl]

/-- Settles O36: the two inverse laws. -/
theorem packAndUnpackAreInverse : Obligations.PackAndUnpackAreInverse :=
  ⟨unpack_pack, pack_unpack⟩

end Sys2Proof.Machine

/-! PROOF. The statements of the exceptions chapter (60_exceptions.md): the block stops at a reserved `fmt` code only
(R140, R144), and a submitted request fails at a bad register identifier only (R141, R143). -/

namespace Sys2Proof.Machine

/-- A format's code is one of the caller's six (R162). -/
theorem presentable_of_fmt_eq_code {p : Ports} {f : Fmt} (h : p.fmt = f.code) : presentable p := by
  rw [presentable, h]
  cases f <;> decide

/-! ## Submitting a request -/

/-- The ports of a descriptor present it (`decode_encodePorts`), so the block encodes it whatever stood on the ports. -/
theorem step_present_encodePorts (i : Instr) (s : State) :
    step (s.present (encodePorts i)) = .next ⟨encodePorts i, carries (encode i)⟩ :=
  step_eq_carries (decode_encodePorts i)

theorem submit_of_resolve_ok {r : Request} {i : Instr} (h : r.resolve = .ok i) (s : State) :
    submit r s = .next ⟨encodePorts i, carries (encode i)⟩ := by
  simp only [submit, h, step_present_encodePorts]

theorem submit_of_resolve_error {r : Request} {e : Fault} (h : r.resolve = .error e) (s : State) :
    submit r s = .fault e := by
  simp only [submit, h]

/-! ## The statements -/

/-- Settles O26: a step has two outcomes (`step_cases`), a next state under a format's code and a refusal under a
reserved one. -/
theorem onlyAReservedFmtStopsTheBlock : Obligations.OnlyAReservedFmtStopsTheBlock := by
  intro s
  rcases step_cases s with ⟨f, hf, -, hs⟩ | ⟨hres, hs⟩
  · simp [hs, presentable_of_fmt_eq_code hf]
  · have hp : ¬ presentable s.inp := fun h => (presentable_iff _).mp h hres
    simp [hs, hp]

/-- Settles O42: one bad identifier makes the request fail (`resolve_eq_error`), and a request with none resolves
(`resolve_eq_ok_iff`), since an identifier that does not fail yields a register. -/
theorem submitFaultsExactlyOnAnInvalidRegister : Obligations.SubmitFaultsExactlyOnAnInvalidRegister := by
  refine fun r s => ⟨fun hbad => submit_of_resolve_error (resolve_eq_error hbad) s, fun hgood => ?_⟩
  have hregs : ∀ id ∈ r.regIds, ∃ x, regenc id = .ok x :=
    fun id hid => (regenc_cases id).resolve_right (hgood id hid)
  obtain ⟨i, hi⟩ := (resolve_eq_ok_iff r).mpr hregs
  exact ⟨i, hi, submit_of_resolve_ok hi s⟩

end Sys2Proof.Machine

/-! PROOF. The statement of the reset chapter (70_reset_and_hazards.md): at power-up the outputs are the function of the
inputs (R160), which the model holds at zero (log entry 2). -/

namespace Sys2Proof.Machine

/-- The ports at power-up present a descriptor: R's code is 0, and every field is zero. -/
theorem reset_inp_eq_encodePorts : State.reset.inp = encodePorts (.encR 0 0 0 0 0 0) := rfl

/-- The outputs at power-up are those of that descriptor's word, which is zero (log entry 3). -/
theorem reset_out_eq_carries : State.reset.out = carries (encode (.encR 0 0 0 0 0 0)) := by decide

theorem reset_settled : State.reset.settled := by
  refine ⟨.encR 0 0 0 0 0 0, ?_, reset_out_eq_carries⟩
  rw [reset_inp_eq_encodePorts, decode_encodePorts]

/-- Settles O32: the zero ports present the all-zero R descriptor (`reset_settled`), whose `fmt` code is a format's. -/
theorem resetPortsAreSettled : Obligations.ResetPortsAreSettled :=
  ⟨reset_settled, rfl, presentable_of_fmt_eq_code (f := .r) rfl⟩

end Sys2Proof.Machine
